-- ==== Sys2Proof/Word.lean ====
section
/-! DEFINITION. The word types of the block: command words, text bytes, register names, and the plainest
arithmetic on unbounded integers that the spec's notation names (00_scope.md R13). -/

namespace Sys2Proof

/-- A byte of the text buffer (10_state.md R43). -/
abbrev Byte := BitVec 8

/-- A 32-bit command word, taken by value: it has no byte order (30_encoding.md R90). -/
abbrev CommandWord := BitVec 32

/-- The name of a wide register, `r0` to `r15` (10_state.md R31, 30_encoding.md R92). -/
abbrev Reg := Fin 16

/-- `trunc_N(v)` (00_scope.md R13). -/
abbrev trunc (n v : Nat) : Nat := v % 2 ^ n

/-- `MAX` for a width of `n` bits (00_scope.md R16). -/
abbrev maxOf (n : Nat) : Nat := 2 ^ n - 1

end Sys2Proof
end

