-- ==== Sys2Proof/Syntax.lean ====
section
/-! DEFINITION. The WIC-1 command set: one constructor for each row of spec/opcode_table.json, operands in the order of
the assembler syntax of 30_encoding.md R95 (destinations first, then sources). -/

namespace Sys2Proof

/-- A WIC-1 command (30_encoding.md R95). -/
inductive Instr where
  | mov (rd ra : Reg)
  | ldi (rd : Reg) (imm16 : BitVec 16)
  | add (rd ra rb : Reg)
  | sub (rd ra rb : Reg)
  | mul (rd ra rb : Reg)
  | mulw (rd ra rb : Reg)
  | div (rd ra rb : Reg)
  | rem (rd ra rb : Reg)
  /-- Quotient to `rd`, remainder to `rc`, of `ra` by `rb`. -/
  | divrem (rd rc ra rb : Reg)
  | and (rd ra rb : Reg)
  | or (rd ra rb : Reg)
  | xor (rd ra rb : Reg)
  | not (rd ra : Reg)
  | shl (rd ra rb : Reg)
  | shr (rd ra rb : Reg)
  | shli (rd ra : Reg) (imm16 : BitVec 16)
  | shri (rd ra : Reg) (imm16 : BitVec 16)
  | cmp (ra rb : Reg)
  | cmpi (ra : Reg) (imm16 : BitVec 16)
  | seq (rd ra rb : Reg)
  | sne (rd ra rb : Reg)
  | slt (rd ra rb : Reg)
  | sle (rd ra rb : Reg)
  | sgt (rd ra rb : Reg)
  | sge (rd ra rb : Reg)
  | parse (rd : Reg)
  | fmtd (ra : Reg)
  | fmth (ra : Reg)
  /-- Base `ra`, exponent `rb`, modulus `rc`. -/
  | modpow (rd ra rb rc : Reg)
  | seed (ra : Reg)
  | rand (rd : Reg)
  /-- Low end `ra`, high end `rb`. -/
  | urand (rd ra rb : Reg)
  | clrst
  deriving DecidableEq, Repr

end Sys2Proof
end

