-- ==== Sys2Proof/WellFormed.lean ====
section
/-! DEFINITION. The operand constraints a command's format does not express (30_encoding.md R97). Everything else is in
the types: register fields are 4 bits and all valid (R92), immediates are 16 bits (R93). -/

namespace Sys2Proof

/-- The name of an even register, the first of a pair (10_state.md R33). -/
def Reg.isEven (r : Reg) : Bool := r.val % 2 == 0

/-- MULW names an even destination, DIVREM two different ones; every other command is well formed (30_encoding.md R97). -/
def Instr.wellFormed : Instr → Bool
  | .mov _ _ => true
  | .ldi _ _ => true
  | .add _ _ _ => true
  | .sub _ _ _ => true
  | .mul _ _ _ => true
  | .mulw rd _ _ => Reg.isEven rd
  | .div _ _ _ => true
  | .rem _ _ _ => true
  | .divrem rd rc _ _ => rd != rc
  | .and _ _ _ => true
  | .or _ _ _ => true
  | .xor _ _ _ => true
  | .not _ _ => true
  | .shl _ _ _ => true
  | .shr _ _ _ => true
  | .shli _ _ _ => true
  | .shri _ _ _ => true
  | .cmp _ _ => true
  | .cmpi _ _ => true
  | .seq _ _ _ => true
  | .sne _ _ _ => true
  | .slt _ _ _ => true
  | .sle _ _ _ => true
  | .sgt _ _ _ => true
  | .sge _ _ _ => true
  | .parse _ => true
  | .fmtd _ => true
  | .fmth _ => true
  | .modpow _ _ _ _ => true
  | .seed _ => true
  | .rand _ => true
  | .urand _ _ _ => true
  | .clrst => true

end Sys2Proof
end

