-- ==== Sys2Proof/Decode.lean ====
section
/-! DEFINITION. The decoder, total on every 32-bit word (30_encoding.md R100), and the encoder beside it, both written
from the field layout (R90), the formats (R91) and the opcode map (R95). -/

namespace Sys2Proof

/-! ## Fields (30_encoding.md R90) -/

def fieldOp (w : CommandWord) : BitVec 8 := w.extractLsb' 24 8

def fieldRd (w : CommandWord) : Reg := (w.extractLsb' 20 4).toFin

def fieldRa (w : CommandWord) : Reg := (w.extractLsb' 16 4).toFin

def fieldRb (w : CommandWord) : Reg := (w.extractLsb' 12 4).toFin

def fieldRc (w : CommandWord) : Reg := (w.extractLsb' 8 4).toFin

def fieldImm16 (w : CommandWord) : BitVec 16 := w.extractLsb' 0 16

/-! ## Formats (30_encoding.md R91) -/

/-- The ten command formats. -/
inductive Format where
  | r4 | r3 | r2 | r1d | r1s | rc | i | ic | id | n
  deriving DecidableEq, Repr

/-- The bits of a format's zero fields, which must all be 0 (30_encoding.md R91, R94). -/
def Format.zeroBits : Format → CommandWord
  | .r4 => 0x000000FF
  | .r3 => 0x00000FFF
  | .r2 => 0x0000FFFF
  | .r1d => 0x000FFFFF
  | .r1s => 0x00F0FFFF
  | .rc => 0x00F00FFF
  | .i => 0x00000000
  | .ic => 0x00F00000
  | .id => 0x000F0000
  | .n => 0x00FFFFFF

/-! ## The opcode map (30_encoding.md R95) -/

/-- The assigned opcodes, one for each command. -/
inductive Opcode where
  | mov
  | ldi
  | add
  | sub
  | mul
  | mulw
  | div
  | rem
  | divrem
  | and
  | or
  | xor
  | not
  | shl
  | shr
  | shli
  | shri
  | cmp
  | cmpi
  | seq
  | sne
  | slt
  | sle
  | sgt
  | sge
  | parse
  | fmtd
  | fmth
  | modpow
  | seed
  | rand
  | urand
  | clrst
  deriving DecidableEq, Repr

/-- The opcode byte, the column "op (hex)" of 30_encoding.md R95. -/
def Opcode.byte : Opcode → BitVec 8
  | .mov => 0x01
  | .ldi => 0x02
  | .add => 0x10
  | .sub => 0x11
  | .mul => 0x12
  | .mulw => 0x13
  | .div => 0x14
  | .rem => 0x15
  | .divrem => 0x16
  | .and => 0x20
  | .or => 0x21
  | .xor => 0x22
  | .not => 0x23
  | .shl => 0x24
  | .shr => 0x25
  | .shli => 0x26
  | .shri => 0x27
  | .cmp => 0x30
  | .cmpi => 0x31
  | .seq => 0x32
  | .sne => 0x33
  | .slt => 0x34
  | .sle => 0x35
  | .sgt => 0x36
  | .sge => 0x37
  | .parse => 0x40
  | .fmtd => 0x41
  | .fmth => 0x42
  | .modpow => 0x50
  | .seed => 0x60
  | .rand => 0x61
  | .urand => 0x62
  | .clrst => 0x70

/-- The column "format" of 30_encoding.md R95. -/
def Opcode.format : Opcode → Format
  | .mov => .r2
  | .ldi => .id
  | .add => .r3
  | .sub => .r3
  | .mul => .r3
  | .mulw => .r3
  | .div => .r3
  | .rem => .r3
  | .divrem => .r4
  | .and => .r3
  | .or => .r3
  | .xor => .r3
  | .not => .r2
  | .shl => .r3
  | .shr => .r3
  | .shli => .i
  | .shri => .i
  | .cmp => .rc
  | .cmpi => .ic
  | .seq => .r3
  | .sne => .r3
  | .slt => .r3
  | .sle => .r3
  | .sgt => .r3
  | .sge => .r3
  | .parse => .r1d
  | .fmtd => .r1s
  | .fmth => .r1s
  | .modpow => .r4
  | .seed => .r1s
  | .rand => .r1d
  | .urand => .r3
  | .clrst => .n

/-- The opcode a byte is assigned to; none for the unlisted values of 30_encoding.md R96. -/
def opcodeOf (op : BitVec 8) : Option Opcode :=
  match op.toNat with
  | 0x01 => some .mov
  | 0x02 => some .ldi
  | 0x10 => some .add
  | 0x11 => some .sub
  | 0x12 => some .mul
  | 0x13 => some .mulw
  | 0x14 => some .div
  | 0x15 => some .rem
  | 0x16 => some .divrem
  | 0x20 => some .and
  | 0x21 => some .or
  | 0x22 => some .xor
  | 0x23 => some .not
  | 0x24 => some .shl
  | 0x25 => some .shr
  | 0x26 => some .shli
  | 0x27 => some .shri
  | 0x30 => some .cmp
  | 0x31 => some .cmpi
  | 0x32 => some .seq
  | 0x33 => some .sne
  | 0x34 => some .slt
  | 0x35 => some .sle
  | 0x36 => some .sgt
  | 0x37 => some .sge
  | 0x40 => some .parse
  | 0x41 => some .fmtd
  | 0x42 => some .fmth
  | 0x50 => some .modpow
  | 0x60 => some .seed
  | 0x61 => some .rand
  | 0x62 => some .urand
  | 0x70 => some .clrst
  | _ => none

/-- The command an opcode makes of a word's fields (30_encoding.md R95, R100). -/
def Opcode.command (w : CommandWord) : Opcode → Instr
  | .mov => .mov (fieldRd w) (fieldRa w)
  | .ldi => .ldi (fieldRd w) (fieldImm16 w)
  | .add => .add (fieldRd w) (fieldRa w) (fieldRb w)
  | .sub => .sub (fieldRd w) (fieldRa w) (fieldRb w)
  | .mul => .mul (fieldRd w) (fieldRa w) (fieldRb w)
  | .mulw => .mulw (fieldRd w) (fieldRa w) (fieldRb w)
  | .div => .div (fieldRd w) (fieldRa w) (fieldRb w)
  | .rem => .rem (fieldRd w) (fieldRa w) (fieldRb w)
  | .divrem => .divrem (fieldRd w) (fieldRc w) (fieldRa w) (fieldRb w)
  | .and => .and (fieldRd w) (fieldRa w) (fieldRb w)
  | .or => .or (fieldRd w) (fieldRa w) (fieldRb w)
  | .xor => .xor (fieldRd w) (fieldRa w) (fieldRb w)
  | .not => .not (fieldRd w) (fieldRa w)
  | .shl => .shl (fieldRd w) (fieldRa w) (fieldRb w)
  | .shr => .shr (fieldRd w) (fieldRa w) (fieldRb w)
  | .shli => .shli (fieldRd w) (fieldRa w) (fieldImm16 w)
  | .shri => .shri (fieldRd w) (fieldRa w) (fieldImm16 w)
  | .cmp => .cmp (fieldRa w) (fieldRb w)
  | .cmpi => .cmpi (fieldRa w) (fieldImm16 w)
  | .seq => .seq (fieldRd w) (fieldRa w) (fieldRb w)
  | .sne => .sne (fieldRd w) (fieldRa w) (fieldRb w)
  | .slt => .slt (fieldRd w) (fieldRa w) (fieldRb w)
  | .sle => .sle (fieldRd w) (fieldRa w) (fieldRb w)
  | .sgt => .sgt (fieldRd w) (fieldRa w) (fieldRb w)
  | .sge => .sge (fieldRd w) (fieldRa w) (fieldRb w)
  | .parse => .parse (fieldRd w)
  | .fmtd => .fmtd (fieldRa w)
  | .fmth => .fmth (fieldRa w)
  | .modpow => .modpow (fieldRd w) (fieldRa w) (fieldRb w) (fieldRc w)
  | .seed => .seed (fieldRa w)
  | .rand => .rand (fieldRd w)
  | .urand => .urand (fieldRd w) (fieldRa w) (fieldRb w)
  | .clrst => .clrst

/-! ## Decoding (30_encoding.md R100) -/

/-- Why a word spells no command; each raises IllegalCommand (30_encoding.md R94, R96, R97; log 14). -/
inductive DecodeFault where
  | unassignedOpcode
  | nonzeroZeroField
  | mulwOddDestination
  | divremSameDestination
  deriving DecidableEq, Repr

/-- What decoding a word gives: every word is one command or illegal (30_encoding.md R98). -/
inductive Decoded where
  | command (i : Instr)
  | illegal (why : DecodeFault)
  deriving DecidableEq, Repr

/-- `decode(w)` of 30_encoding.md R100: the checks in its order, none of which reads an operand. -/
def decode (w : CommandWord) : Decoded :=
  match opcodeOf (fieldOp w) with
  | none => .illegal .unassignedOpcode
  | some o =>
    if w &&& o.format.zeroBits ≠ 0 then .illegal .nonzeroZeroField
    else if o = .mulw ∧ Reg.isEven (fieldRd w) = false then .illegal .mulwOddDestination
    else if o = .divrem ∧ fieldRd w = fieldRc w then .illegal .divremSameDestination
    else .command (o.command w)

/-! ## Encoding -/

/-- A register name as a 4-bit field (30_encoding.md R92). -/
def regField (r : Reg) : BitVec 4 := BitVec.ofFin r

/-- A word of a register format (30_encoding.md R91); the low byte `z8` is 0 in all of them. -/
def pack (op : BitVec 8) (rd ra rb rc : Reg) : CommandWord :=
  op ++ regField rd ++ regField ra ++ regField rb ++ regField rc ++ (0 : BitVec 8)

/-- A word of an immediate format (30_encoding.md R91). -/
def packImm (op : BitVec 8) (rd ra : Reg) (imm16 : BitVec 16) : CommandWord :=
  op ++ regField rd ++ regField ra ++ imm16

/-- The opcode of a command. -/
def Instr.opcode : Instr → Opcode
  | .mov _ _ => .mov
  | .ldi _ _ => .ldi
  | .add _ _ _ => .add
  | .sub _ _ _ => .sub
  | .mul _ _ _ => .mul
  | .mulw _ _ _ => .mulw
  | .div _ _ _ => .div
  | .rem _ _ _ => .rem
  | .divrem _ _ _ _ => .divrem
  | .and _ _ _ => .and
  | .or _ _ _ => .or
  | .xor _ _ _ => .xor
  | .not _ _ => .not
  | .shl _ _ _ => .shl
  | .shr _ _ _ => .shr
  | .shli _ _ _ => .shli
  | .shri _ _ _ => .shri
  | .cmp _ _ => .cmp
  | .cmpi _ _ => .cmpi
  | .seq _ _ _ => .seq
  | .sne _ _ _ => .sne
  | .slt _ _ _ => .slt
  | .sle _ _ _ => .sle
  | .sgt _ _ _ => .sgt
  | .sge _ _ _ => .sge
  | .parse _ => .parse
  | .fmtd _ => .fmtd
  | .fmth _ => .fmth
  | .modpow _ _ _ _ => .modpow
  | .seed _ => .seed
  | .rand _ => .rand
  | .urand _ _ _ => .urand
  | .clrst => .clrst

/-- The word of a command (30_encoding.md R91, R95); a field the format does not use is 0. -/
def encode : Instr → CommandWord
  | .mov rd ra => pack (Opcode.byte .mov) rd ra 0 0
  | .ldi rd imm16 => packImm (Opcode.byte .ldi) rd 0 imm16
  | .add rd ra rb => pack (Opcode.byte .add) rd ra rb 0
  | .sub rd ra rb => pack (Opcode.byte .sub) rd ra rb 0
  | .mul rd ra rb => pack (Opcode.byte .mul) rd ra rb 0
  | .mulw rd ra rb => pack (Opcode.byte .mulw) rd ra rb 0
  | .div rd ra rb => pack (Opcode.byte .div) rd ra rb 0
  | .rem rd ra rb => pack (Opcode.byte .rem) rd ra rb 0
  | .divrem rd rc ra rb => pack (Opcode.byte .divrem) rd ra rb rc
  | .and rd ra rb => pack (Opcode.byte .and) rd ra rb 0
  | .or rd ra rb => pack (Opcode.byte .or) rd ra rb 0
  | .xor rd ra rb => pack (Opcode.byte .xor) rd ra rb 0
  | .not rd ra => pack (Opcode.byte .not) rd ra 0 0
  | .shl rd ra rb => pack (Opcode.byte .shl) rd ra rb 0
  | .shr rd ra rb => pack (Opcode.byte .shr) rd ra rb 0
  | .shli rd ra imm16 => packImm (Opcode.byte .shli) rd ra imm16
  | .shri rd ra imm16 => packImm (Opcode.byte .shri) rd ra imm16
  | .cmp ra rb => pack (Opcode.byte .cmp) 0 ra rb 0
  | .cmpi ra imm16 => packImm (Opcode.byte .cmpi) 0 ra imm16
  | .seq rd ra rb => pack (Opcode.byte .seq) rd ra rb 0
  | .sne rd ra rb => pack (Opcode.byte .sne) rd ra rb 0
  | .slt rd ra rb => pack (Opcode.byte .slt) rd ra rb 0
  | .sle rd ra rb => pack (Opcode.byte .sle) rd ra rb 0
  | .sgt rd ra rb => pack (Opcode.byte .sgt) rd ra rb 0
  | .sge rd ra rb => pack (Opcode.byte .sge) rd ra rb 0
  | .parse rd => pack (Opcode.byte .parse) rd 0 0 0
  | .fmtd ra => pack (Opcode.byte .fmtd) 0 ra 0 0
  | .fmth ra => pack (Opcode.byte .fmth) 0 ra 0 0
  | .modpow rd ra rb rc => pack (Opcode.byte .modpow) rd ra rb rc
  | .seed ra => pack (Opcode.byte .seed) 0 ra 0 0
  | .rand rd => pack (Opcode.byte .rand) rd 0 0 0
  | .urand rd ra rb => pack (Opcode.byte .urand) rd ra rb 0
  | .clrst => pack (Opcode.byte .clrst) 0 0 0 0

/-! ## The opcode table -/

/-- Rows MOV to OR of spec/opcode_table.json: mnemonic, match, mask. -/
def opcodeRows1 : List (String × CommandWord × CommandWord) :=
  [("MOV", 0x01000000, 0xFF00FFFF),
   ("LDI", 0x02000000, 0xFF0F0000),
   ("ADD", 0x10000000, 0xFF000FFF),
   ("SUB", 0x11000000, 0xFF000FFF),
   ("MUL", 0x12000000, 0xFF000FFF),
   ("MULW", 0x13000000, 0xFF100FFF),
   ("DIV", 0x14000000, 0xFF000FFF),
   ("REM", 0x15000000, 0xFF000FFF),
   ("DIVREM", 0x16000000, 0xFF0000FF),
   ("AND", 0x20000000, 0xFF000FFF),
   ("OR", 0x21000000, 0xFF000FFF)]

/-- Rows XOR to SLT of spec/opcode_table.json: mnemonic, match, mask. -/
def opcodeRows2 : List (String × CommandWord × CommandWord) :=
  [("XOR", 0x22000000, 0xFF000FFF),
   ("NOT", 0x23000000, 0xFF00FFFF),
   ("SHL", 0x24000000, 0xFF000FFF),
   ("SHR", 0x25000000, 0xFF000FFF),
   ("SHLI", 0x26000000, 0xFF000000),
   ("SHRI", 0x27000000, 0xFF000000),
   ("CMP", 0x30000000, 0xFFF00FFF),
   ("CMPI", 0x31000000, 0xFFF00000),
   ("SEQ", 0x32000000, 0xFF000FFF),
   ("SNE", 0x33000000, 0xFF000FFF),
   ("SLT", 0x34000000, 0xFF000FFF)]

/-- Rows SLE to CLRST of spec/opcode_table.json: mnemonic, match, mask. -/
def opcodeRows3 : List (String × CommandWord × CommandWord) :=
  [("SLE", 0x35000000, 0xFF000FFF),
   ("SGT", 0x36000000, 0xFF000FFF),
   ("SGE", 0x37000000, 0xFF000FFF),
   ("PARSE", 0x40000000, 0xFF0FFFFF),
   ("FMTD", 0x41000000, 0xFFF0FFFF),
   ("FMTH", 0x42000000, 0xFFF0FFFF),
   ("MODPOW", 0x50000000, 0xFF0000FF),
   ("SEED", 0x60000000, 0xFFF0FFFF),
   ("RAND", 0x61000000, 0xFF0FFFFF),
   ("URAND", 0x62000000, 0xFF000FFF),
   ("CLRST", 0x70000000, 0xFFFFFFFF)]

/-- spec/opcode_table.json: mnemonic, match, mask of each row. -/
def opcodeRows : List (String × CommandWord × CommandWord) :=
  opcodeRows1 ++ opcodeRows2 ++ opcodeRows3

/-! ## The host's view -/

/-- The low `nbits` bits of `w` as the word of one command: the bits above them are 0. Every command is exactly 32 bits
(30_encoding.md R99), so a longer value is no command word. -/
def tableWord (nbits w : Nat) : Option CommandWord :=
  if w % 2 ^ nbits < 2 ^ 32 then some (BitVec.ofNat 32 (w % 2 ^ nbits)) else none

/-- The command this decoder reads from the instruction whose bits are the low `nbits` bits of `w`. -/
def decodeTableWord (nbits w : Nat) : Option Instr :=
  match tableWord nbits w with
  | none => none
  | some word =>
    match decode word with
    | .command i => some i
    | .illegal _ => none

end Sys2Proof
end

