-- ==== Sys2Proof/Config.lean ====
section
/-! DEFINITION. What an instance of the block fixes (00_scope.md R3, R10): the widths and the text capacity, with the
constraints the spec puts on them, and the open parameters of the random engine, which are constants without a body. -/

namespace Sys2Proof.Config

/-- The limb widths an instance may have: "one of 8, 16, 32, 64" (00_scope.md R10). -/
inductive LimbWidth where
  | w8 | w16 | w32 | w64
  deriving DecidableEq, Repr

/-- `LIMB_W` in bits. -/
def LimbWidth.bits : LimbWidth → Nat
  | .w8 => 8
  | .w16 => 16
  | .w32 => 32
  | .w64 => 64

/-- The parameters of one instance with the constraints of 00_scope.md R10.
`TXT_CAP ≥ DEC_DIGITS` is written `2 ^ bits ≤ 10 ^ txtCap`: the decimal form of `2 ^ bits − 1` has at most `k` digits
exactly when `2 ^ bits ≤ 10 ^ k`. -/
structure Params where
  bits : Nat
  limbW : LimbWidth
  txtCap : Nat
  limbs_fill : bits % limbW.bits = 0
  native_fits : 64 ≤ bits
  decimal_fits : 2 ^ bits ≤ 10 ^ txtCap
  hex_fits : 2 + bits / 4 ≤ txtCap
  deriving DecidableEq, Repr

/-- `NLIMB = BITS / LIMB_W` (00_scope.md R10). -/
def Params.nlimb (p : Params) : Nat := p.bits / p.limbW.bits

/-- The instance of the spec's vectors (95_test_vectors.md §0). DESIGN CHOICE (log 1): the spec leaves the instance open. -/
def standard : Params where
  bits := 256
  limbW := .w32
  txtCap := 78
  limbs_fill := by decide
  native_fits := by decide
  decimal_fits := by decide
  hex_fits := by decide

/-- How many bits the engine's "fixed-size internal state" has: open (00_scope.md R10, D21; log 2). -/
opaque engineWidth : Nat

/-- `EngineState`: the opaque, fixed-size state of the random engine (00_scope.md R10; log 2). -/
abbrev EngineState := BitVec engineWidth

/-- `RNG_SEED : UInt(BITS) → EngineState`: open (46_random.md R230, D21; log 2). -/
opaque rngSeed (bits : Nat) : BitVec bits → EngineState

/-- `RNG_STEP : EngineState → EngineState × UInt(LIMB_W)`: open (46_random.md R233, D21; log 2). -/
opaque rngStep (limbW : Nat) : EngineState → EngineState × BitVec limbW

/-- `RNG_DEFAULT_SEED`: open (70_reset_and_hazards.md R294, D5; log 2). -/
opaque rngDefaultSeed (bits : Nat) : BitVec bits

end Sys2Proof.Config
end

