-- ==== Sys2Proof/Machine/State.lean ====
section
/-! DEFINITION. The state of the block (10_state.md), the host transactions it performs (20_memory.md R60 to R69), the
reasons a step can stop, and the state after reset (10_state.md R48, 70_reset_and_hazards.md R293). -/

namespace Sys2Proof.Machine

open Sys2Proof.Config

/-- The errors a command can raise (60_exceptions.md R260). -/
inductive ErrorKind where
  | divisionByZero
  | invalidLiteral
  | illegalCommand
  | invalidRange
  deriving DecidableEq, Repr

/-- STATUS by its fields (10_state.md R38). The reserved bits 7:6 and 31:11 have no storage: they read as 0 and are never
written (log 10). `cmp` holds the outcome of the last CMP or CMPI; `last` is the outcome of the last command, none for OK. -/
structure Status where
  dz : Bool
  il : Bool
  ic : Bool
  ir : Bool
  cmp : Ordering
  last : Option ErrorKind
  deriving DecidableEq, Repr

/-- STATUS after reset: `0x00000000` (10_state.md R48). -/
def Status.reset : Status where
  dz := false
  il := false
  ic := false
  ir := false
  cmp := .eq
  last := none

/-- A host transaction (20_memory.md R60 to R69). Payloads typed UInt(BITS) or UInt(LIMB_W) are numbers here, and a number
too wide for the type is refused (log 8). -/
inductive HostTransaction where
  | hCmd (w : CommandWord)
  | hRreg (i : Reg)
  | hWreg (i : Reg) (v : Nat)
  | hRlimb (i : Reg) (j : Nat)
  | hWlimb (i : Reg) (j : Nat) (x : Nat)
  | hWtxt (text : List Byte)
  | hRtxt
  | hRstatus
  | hWnat (i : Reg) (n : BitVec 64)
  | hReset
  /-- An H_CMD of `w` together with the H_RESET the host issues while that command is still running
  (20_memory.md R69, 70_reset_and_hazards.md R293; log 6). -/
  | hCmdAbandoned (w : CommandWord)
  deriving DecidableEq, Repr

/-- Who issued a transaction: the one host of the instance, or any other agent (10_state.md R30, 60_exceptions.md R275). -/
inductive Issuer where
  | host
  | other
  deriving DecidableEq, Repr

/-- An issued transaction, not yet performed. -/
structure Request where
  issuer : Issuer
  tx : HostTransaction
  deriving DecidableEq, Repr

/-- What a performed transaction returns to the host (20_memory.md R60 to R70). -/
inductive Response where
  /-- The code of an H_CMD (R60). -/
  | code (c : Nat)
  | value (v : Nat)
  | limb (x : Nat)
  | text (t : List Byte)
  | status (w : BitVec 32)
  /-- A transaction that names no return value has completed (log 12). -/
  | done
  /-- The response `REFUSED` (R70). -/
  | refused
  deriving DecidableEq, Repr

/-- Why the machine stops. -/
inductive Fault where
  /-- Raised by URAND alone, when no candidate its engine can ever give is accepted: the H_CMD never returns
  (70_reset_and_hazards.md R297, 93_implementation_defined.md I13: "stuck"). Safe: the block has no state after it,
  other than through a reset that abandons the command (log 3). -/
  | samplingNeverAccepts
  deriving DecidableEq, Repr

/-- Why the model gives a step no meaning. -/
inductive Refusal where
  /-- Raised in exec's arm of an instruction that has no meaning yet. Safe. -/
  | notModelled (mnemonic : String)
  /-- Raised by step for a transaction of a second host: "A model must refuse it" (60_exceptions.md R275). Safe (log 7). -/
  | secondHost
  /-- Raised by step for an H_WREG or H_WLIMB payload that the transaction's type does not admit
  (20_memory.md R62, R64). Safe (log 8). -/
  | payloadTooWide
  deriving DecidableEq, Repr

/-- The state of one instance of the block. `params`, `pending` and `response` are the model's own (log 1, log 4). -/
structure State where
  /-- Which instance this is (00_scope.md R3, R10); no transaction changes it. -/
  params : Params
  /-- The wide registers r0 to r15 (10_state.md R31). -/
  regs : Vector (BitVec params.bits) 16
  /-- STATUS (10_state.md R38). -/
  status : Status
  /-- TXT, whose length is TXTLEN (10_state.md R43, R44; log 9). -/
  txt : List Byte
  /-- ENG (10_state.md R45). -/
  eng : EngineState
  /-- The transactions the host has issued and the block has not performed yet, oldest first (20_memory.md R76). -/
  pending : List Request
  /-- What the transaction performed last returned; none before the first. -/
  response : Option Response
  deriving DecidableEq, Repr

/-- The state of instance `p` after reset (10_state.md R48, 70_reset_and_hazards.md R293), with no transaction issued. -/
def State.resetFor (p : Params) : State where
  params := p
  regs := Vector.replicate 16 0#p.bits
  status := Status.reset
  txt := []
  eng := rngSeed p.bits (rngDefaultSeed p.bits)
  pending := []
  response := none

/-- The machine right after reset: the instance of the spec's vectors (log 1). -/
def State.reset : State := State.resetFor standard

/-- The three outcomes of this machine's steps. -/
abbrev Outcome := Host.Outcome State Fault Refusal

end Sys2Proof.Machine
end

