-- ==== Sys2Proof/Machine/Flags.lean ====
section
/-! DEFINITION. Everything that computes or changes a field of STATUS (10_state.md R38 to R41, 60_exceptions.md R260). -/

namespace Sys2Proof.Machine

/-- The code of an error in `STATUS.LAST` and in the H_CMD response (60_exceptions.md R260). -/
def ErrorKind.code : ErrorKind → Nat
  | .divisionByZero => 1
  | .invalidLiteral => 2
  | .illegalCommand => 3
  | .invalidRange => 4

/-- The value of `STATUS.LAST`: 0 for OK, else the error's code (10_state.md R38). -/
def Status.lastCode (st : Status) : Nat :=
  match st.last with
  | none => 0
  | some e => e.code

/-- The value of `STATUS.CMP`: 00 equal, 01 less, 10 greater (10_state.md R38, 43_compare.md R180). -/
def cmpCode : Ordering → Nat
  | .eq => 0
  | .lt => 1
  | .gt => 2

/-- Sets the sticky bit of an error and no other (10_state.md R39). -/
def Status.setSticky (e : ErrorKind) (st : Status) : Status :=
  match e with
  | .divisionByZero => { st with dz := true }
  | .invalidLiteral => { st with il := true }
  | .illegalCommand => { st with ic := true }
  | .invalidRange => { st with ir := true }

/-- What a command that raises `e` does to STATUS: its sticky bit set, `LAST` its code (60_exceptions.md R262). -/
def Status.failed (e : ErrorKind) (st : Status) : Status :=
  { st.setSticky e with last := some e }

/-- What a command that completes does to STATUS: `LAST <- 0`, no sticky bit changed (10_state.md R39, R41). -/
def Status.succeeded (st : Status) : Status := { st with last := none }

/-- Writes `STATUS.CMP` (43_compare.md R180). -/
def Status.setCmp (o : Ordering) (st : Status) : Status := { st with cmp := o }

/-- Clears the four sticky bits (47_status.md R250). -/
def Status.clearSticky (st : Status) : Status :=
  { st with dz := false, il := false, ic := false, ir := false }

/-- STATUS as the 32-bit word H_RSTATUS returns: DZ bit 0, IL bit 1, IC bit 2, IR bit 3, CMP bits 5:4, LAST bits 10:8,
every other bit 0 (10_state.md R38). -/
def Status.word (st : Status) : BitVec 32 :=
  BitVec.ofNat 32
    (st.dz.toNat + 2 * st.il.toNat + 4 * st.ic.toNat + 8 * st.ir.toNat + 16 * cmpCode st.cmp + 256 * st.lastCode)

end Sys2Proof.Machine
end

