-- ==== Sys2Proof/Machine/Operands.lean ====
section
/-! DEFINITION. The value-level forms commands use on their operands: limbs, the immediate, the shifter, the three-way
order and the bit length (00_scope.md R12, R13; 30_encoding.md R93; 42_bitwise_shift.md R164; 43_compare.md R188). -/

namespace Sys2Proof.Machine

/-- `zext_BITS(imm16)`: the immediate as an unsigned number; it is below `2 ^ BITS` because `BITS ≥ 64`
(30_encoding.md R93). -/
def immValue (imm16 : BitVec 16) : Nat := imm16.toNat

/-- `limb(v, j)` for limbs of `w` bits (00_scope.md R12). -/
def limb (w v j : Nat) : Nat := v / 2 ^ (j * w) % 2 ^ w

/-- `v` with limb `j` replaced by `x`, in the form of 20_memory.md R64. -/
def withLimb (w v j x : Nat) : Nat := v - limb w v j * 2 ^ (j * w) + x * 2 ^ (j * w)

/-- `bitlen(x)`, the number of bits of `x`, with `bitlen(0) = 0` (00_scope.md R13). -/
def bitlen (x : Nat) : Nat := if x = 0 then 0 else Nat.log2 x + 1

/-- `(x − y) mod 2 ^ bits` over the integers (41_arith.md R132). -/
def subMod (bits x y : Nat) : Nat := (((x : Int) - (y : Int)) % (2 ^ bits : Int)).toNat

/-- `left(x, s)`: 0 for `s ≥ BITS`, else `trunc_BITS(x * 2^s)` (42_bitwise_shift.md R164). -/
def shiftLeft (bits x s : Nat) : Nat := if bits ≤ s then 0 else trunc bits (x * 2 ^ s)

/-- `right(x, s)`: 0 for `s ≥ BITS`, else `x div 2^s` (42_bitwise_shift.md R164). -/
def shiftRight (bits x s : Nat) : Nat := if bits ≤ s then 0 else x / 2 ^ s

/-- `order(x, y)`: the unsigned integer order (43_compare.md R188). -/
def order (x y : Nat) : Ordering := if x < y then .lt else if y < x then .gt else .eq

/-- A set-compare result as a wide value (43_compare.md R189). -/
def truth (b : Bool) : Nat := if b then 1 else 0

end Sys2Proof.Machine
end

