-- ==== Sys2Proof/Machine/Ops.lean ====
section
/-! DEFINITION. The named operations over the state: reading and writing registers, pairs and the text buffer, ending a
command, and raising an error, which is this block's only reaction to one (60_exceptions.md R262, R269). -/

namespace Sys2Proof.Machine

open Sys2Proof.Config

/-! ## Registers -/

/-- `r[i]`, read as an integer in `[0, 2^BITS − 1]` (00_scope.md R12, R13). -/
def State.r (s : State) (i : Reg) : Nat := s.regs[i].toNat

/-- `r[i] <- v`; a value is reduced to `UInt(BITS)` here and nowhere else (00_scope.md R13, R14). -/
def State.writeReg (s : State) (i : Reg) (v : Nat) : State :=
  { s with regs := s.regs.set i (BitVec.ofNat s.params.bits v) }

/-- `pair(2k) = r[2k+1] * 2^BITS + r[2k]` (10_state.md R33). -/
def State.pair (s : State) (even : Reg) : Nat := s.r (even + 1) * 2 ^ s.params.bits + s.r even

/-- Writes a double-width value to the pair `(even, even + 1)`: low half to the even register, high half to the odd one
(10_state.md R33, 41_arith.md R136). -/
def State.writePair (s : State) (even : Reg) (v : Nat) : State :=
  (s.writeReg even (v % 2 ^ s.params.bits)).writeReg (even + 1) (v / 2 ^ s.params.bits)

/-! ## Text -/

/-- `TXTLEN` (10_state.md R43, R44). -/
def State.txtLen (s : State) : Nat := s.txt.length

/-- `TXT <- t ; TXTLEN <- length(t)`. -/
def State.setTxt (s : State) (t : List Byte) : State := { s with txt := t }

/-! ## Engine -/

/-- `ENG <- e` (10_state.md R45). -/
def State.setEng (s : State) (e : EngineState) : State := { s with eng := e }

/-! ## Ending a command -/

/-- A command completes: `LAST <- 0` (10_state.md R41). -/
def State.succeed (s : State) : State := { s with status := s.status.succeeded }

/-- The error protocol: only STATUS changes, by the sticky bit and `LAST` (60_exceptions.md R262). -/
def State.raise (s : State) (e : ErrorKind) : State := { s with status := s.status.failed e }

/-- The outcome of a command that has written its results. -/
def done (s : State) : Outcome := .next s.succeed

/-- The outcome of a command that raises `e` in state `s`, before any destination is written. -/
def fail (e : ErrorKind) (s : State) : Outcome := .next (s.raise e)

/-! ## The host's side -/

/-- The block returns a response to the host (20_memory.md R77). -/
def State.respond (s : State) (r : Response) : State := { s with response := some r }

end Sys2Proof.Machine
end

