-- ==== Sys2Proof/Machine/Arith.lean ====
section
/-! DEFINITION. The core arithmetic commands (41_arith.md). Overflow is never an error (R141); the values are normative and
independent of the limb width (R11), so they are computed on integers. The limb-level engines of R130, R132, R134 and R137
stand in Machine/Limbs.lean (log 15). -/

namespace Sys2Proof.Machine

/-- ADD: `r[rd] <- trunc_BITS(r[ra] + r[rb])` (41_arith.md R131). -/
def execAdd (rd ra rb : Reg) (s : State) : Outcome :=
  done (s.writeReg rd (trunc s.params.bits (s.r ra + s.r rb)))

/-- SUB: `r[rd] <- (r[ra] − r[rb]) mod 2^BITS` (41_arith.md R133). -/
def execSub (rd ra rb : Reg) (s : State) : Outcome :=
  done (s.writeReg rd (subMod s.params.bits (s.r ra) (s.r rb)))

/-- MUL: `r[rd] <- trunc_BITS(r[ra] * r[rb])` (41_arith.md R135). -/
def execMul (rd ra rb : Reg) (s : State) : Outcome :=
  done (s.writeReg rd (trunc s.params.bits (s.r ra * s.r rb)))

/-- MULW: the exact product to the pair `(rd, rd+1)`; IllegalCommand if `rd` is odd (41_arith.md R136, 30_encoding.md R97;
log 13). -/
def execMulw (rd ra rb : Reg) (s : State) : Outcome :=
  if Reg.isEven rd then done (s.writePair rd (s.r ra * s.r rb)) else fail .illegalCommand s

/-- DIV: `r[rd] <- r[ra] div r[rb]`, DivisionByZero for a zero divisor (41_arith.md R138). -/
def execDiv (rd ra rb : Reg) (s : State) : Outcome :=
  if s.r rb = 0 then fail .divisionByZero s else done (s.writeReg rd (s.r ra / s.r rb))

/-- REM: `r[rd] <- r[ra] mod r[rb]`, DivisionByZero for a zero divisor (41_arith.md R139). -/
def execRem (rd ra rb : Reg) (s : State) : Outcome :=
  if s.r rb = 0 then fail .divisionByZero s else done (s.writeReg rd (s.r ra % s.r rb))

/-- DIVREM: quotient to `rd`, remainder to `rc`, both of the old values; IllegalCommand if `rd = rc`, DivisionByZero for a
zero divisor (41_arith.md R140, 30_encoding.md R97; log 13). -/
def execDivrem (rd rc ra rb : Reg) (s : State) : Outcome :=
  if rd = rc then fail .illegalCommand s
  else if s.r rb = 0 then fail .divisionByZero s
  else done ((s.writeReg rd (s.r ra / s.r rb)).writeReg rc (s.r ra % s.r rb))

end Sys2Proof.Machine
end

