-- ==== Sys2Proof/Machine/Bitwise.lean ====
section
/-! DEFINITION. The bitwise operators and the shifts (42_bitwise_shift.md). The limb-level barrel shifter of R164 stands in
Machine/Limbs.lean. -/

namespace Sys2Proof.Machine

/-- AND (42_bitwise_shift.md R160). -/
def execAnd (rd ra rb : Reg) (s : State) : Outcome := done (s.writeReg rd (s.r ra &&& s.r rb))

/-- OR (42_bitwise_shift.md R161). -/
def execOr (rd ra rb : Reg) (s : State) : Outcome := done (s.writeReg rd (s.r ra ||| s.r rb))

/-- XOR (42_bitwise_shift.md R162). -/
def execXor (rd ra rb : Reg) (s : State) : Outcome := done (s.writeReg rd (s.r ra ^^^ s.r rb))

/-- NOT: `r[rd] <- MAX − r[ra]` (42_bitwise_shift.md R163). -/
def execNot (rd ra : Reg) (s : State) : Outcome := done (s.writeReg rd (maxOf s.params.bits - s.r ra))

/-- SHL: the count is the full value of `r[rb]` (42_bitwise_shift.md R165). -/
def execShl (rd ra rb : Reg) (s : State) : Outcome :=
  done (s.writeReg rd (shiftLeft s.params.bits (s.r ra) (s.r rb)))

/-- SHR: the count is the full value of `r[rb]` (42_bitwise_shift.md R166). -/
def execShr (rd ra rb : Reg) (s : State) : Outcome :=
  done (s.writeReg rd (shiftRight s.params.bits (s.r ra) (s.r rb)))

/-- SHLI (42_bitwise_shift.md R167). -/
def execShli (rd ra : Reg) (imm16 : BitVec 16) (s : State) : Outcome :=
  done (s.writeReg rd (shiftLeft s.params.bits (s.r ra) (immValue imm16)))

/-- SHRI (42_bitwise_shift.md R168). -/
def execShri (rd ra : Reg) (imm16 : BitVec 16) (s : State) : Outcome :=
  done (s.writeReg rd (shiftRight s.params.bits (s.r ra) (immValue imm16)))

end Sys2Proof.Machine
end

