-- ==== Sys2Proof/Machine/Compare.lean ====
section
/-! DEFINITION. The comparators (43_compare.md). The limb-level comparison of R188 stands in Machine/Limbs.lean. -/

namespace Sys2Proof.Machine

/-- The outcome of a three-way compare: only STATUS is written (43_compare.md R180). -/
def doneCompare (o : Ordering) (s : State) : Outcome := done { s with status := s.status.setCmp o }

/-- CMP: `STATUS.CMP <- order(r[ra], r[rb])` (43_compare.md R180). -/
def execCmp (ra rb : Reg) (s : State) : Outcome := doneCompare (order (s.r ra) (s.r rb)) s

/-- CMPI: `STATUS.CMP <- order(r[ra], zext_BITS(imm16))` (43_compare.md R181). -/
def execCmpi (ra : Reg) (imm16 : BitVec 16) (s : State) : Outcome :=
  doneCompare (order (s.r ra) (immValue imm16)) s

/-- The template of the set-compare commands: `r[rd] <- (P(order(r[ra], r[rb])) ? 1 : 0)` (43_compare.md R189). -/
def setCompare (holds : Ordering → Bool) (rd ra rb : Reg) (s : State) : Outcome :=
  done (s.writeReg rd (truth (holds (order (s.r ra) (s.r rb)))))

/-- SEQ: P is `o = EQUAL` (43_compare.md R182). -/
def execSeq (rd ra rb : Reg) (s : State) : Outcome := setCompare (fun o => o == .eq) rd ra rb s

/-- SNE: P is `o ≠ EQUAL` (43_compare.md R183). -/
def execSne (rd ra rb : Reg) (s : State) : Outcome := setCompare (fun o => o != .eq) rd ra rb s

/-- SLT: P is `o = LESS` (43_compare.md R184). -/
def execSlt (rd ra rb : Reg) (s : State) : Outcome := setCompare (fun o => o == .lt) rd ra rb s

/-- SLE: P is `o ≠ GREATER` (43_compare.md R185). -/
def execSle (rd ra rb : Reg) (s : State) : Outcome := setCompare (fun o => o != .gt) rd ra rb s

/-- SGT: P is `o = GREATER` (43_compare.md R186). -/
def execSgt (rd ra rb : Reg) (s : State) : Outcome := setCompare (fun o => o == .gt) rd ra rb s

/-- SGE: P is `o ≠ LESS` (43_compare.md R187). -/
def execSge (rd ra rb : Reg) (s : State) : Outcome := setCompare (fun o => o != .lt) rd ra rb s

end Sys2Proof.Machine
end

