-- ==== Sys2Proof/Machine/Text.lean ====
section
/-! DEFINITION. Literal text: the syntax PARSE reads (44_literal.md R200) and the digits FMTD and FMTH emit (R202, R203).
The ASCII codes are the spec's passage K1, general knowledge (93_implementation_defined.md K1; log 11). -/

namespace Sys2Proof.Machine

/-- The value of a digit character in the alphabet of `base`; none outside it (44_literal.md R200). -/
def digitValue (base : Nat) (c : Byte) : Option Nat :=
  if 0x30 ≤ c.toNat ∧ c.toNat ≤ 0x39 then some (c.toNat - 0x30)
  else if base = 16 ∧ 0x61 ≤ c.toNat ∧ c.toNat ≤ 0x66 then some (c.toNat - 0x61 + 10)
  else if base = 16 ∧ 0x41 ≤ c.toNat ∧ c.toNat ≤ 0x46 then some (c.toNat - 0x41 + 10)
  else none

/-- The values of a digit string, first to last; none if a byte is outside the alphabet. -/
def digitValues (base : Nat) : List Byte → Option (List Nat)
  | [] => some []
  | c :: cs =>
    match digitValue base c, digitValues base cs with
    | some v, some vs => some (v :: vs)
    | _, _ => none

/-- The base a text selects and its digit characters: `0x` or `0X` at position 0 selects 16 (44_literal.md R200). -/
def splitPrefix (t : List Byte) : Nat × List Byte :=
  match t with
  | c0 :: c1 :: rest => if c0 = 0x30#8 ∧ (c1 = 0x78#8 ∨ c1 = 0x58#8) then (16, rest) else (10, t)
  | _ => (10, t)

/-- The base and digit values of a literal; none where 44_literal.md R200 raises InvalidLiteral. -/
def literal (t : List Byte) : Option (Nat × List Nat) :=
  match splitPrefix t with
  | (_, []) => none
  | (base, digits) =>
    match digitValues base digits with
    | some vs => some (base, vs)
    | none => none

/-- The running total of PARSE: `acc <- trunc_BITS(acc * base + v)`, first digit to last (44_literal.md R201). -/
def accumulate (bits base : Nat) (vs : List Nat) : Nat :=
  vs.foldl (fun acc v => trunc bits (acc * base + v)) 0

/-- The digits of `x` in `base`, most significant first, without leading zeros, `[0]` for 0; `fuel` digits at most. -/
def digitsOf (base : Nat) : (fuel : Nat) → Nat → List Nat
  | 0, _ => []
  | fuel + 1, x => if x < base then [x] else digitsOf base fuel (x / base) ++ [x % base]

/-- The character of a digit value: `0` to `9`, then upper-case `A` to `F` (44_literal.md R202, R203). -/
def digitChar (d : Nat) : Byte := BitVec.ofNat 8 (if d < 10 then 0x30 + d else 0x41 + (d - 10))

/-- The text FMTD writes for a value of at most `bits` bits (44_literal.md R202). -/
def decimalText (bits x : Nat) : List Byte := (digitsOf 10 bits x).map digitChar

/-- The text FMTH writes for a value of at most `bits` bits (44_literal.md R203). -/
def hexText (bits x : Nat) : List Byte := 0x30#8 :: 0x78#8 :: (digitsOf 16 bits x).map digitChar

end Sys2Proof.Machine
end

