-- ==== Sys2Proof/Machine/Literal.lean ====
section
/-! DEFINITION. The literal commands (44_literal.md). -/

namespace Sys2Proof.Machine

/-- PARSE: the value of the literal in TXT, truncated to BITS bits; InvalidLiteral otherwise (44_literal.md R201). -/
def execParse (rd : Reg) (s : State) : Outcome :=
  match literal s.txt with
  | none => fail .invalidLiteral s
  | some (base, vs) => done (s.writeReg rd (accumulate s.params.bits base vs))

/-- FMTD: `TXT <-` the decimal text of `r[ra]` (44_literal.md R202). -/
def execFmtd (ra : Reg) (s : State) : Outcome := done (s.setTxt (decimalText s.params.bits (s.r ra)))

/-- FMTH: `TXT <-` the hexadecimal text of `r[ra]` (44_literal.md R203). -/
def execFmth (ra : Reg) (s : State) : Outcome := done (s.setTxt (hexText s.params.bits (s.r ra)))

end Sys2Proof.Machine
end

