-- ==== Sys2Proof/Machine/Sequencer.lean ====
section
/-! DEFINITION. The square-and-multiply sequencer (45_modpow.md R221). -/

namespace Sys2Proof.Machine

/-- The two operations of the sequencer. -/
inductive PowOp where
  | square
  | multiply
  deriving DecidableEq, Repr

/-- The operations for the low `n` bits of exponent `e`, most significant bit first: a squaring for each bit, and a multiply
after it where the bit is 1 (45_modpow.md R221). -/
def powOps (e : Nat) : (n : Nat) → List PowOp
  | 0 => []
  | i + 1 => if e / 2 ^ i % 2 = 1 then .square :: .multiply :: powOps e i else .square :: powOps e i

/-- One operation: the exact double-width product, then its remainder (45_modpow.md R221). -/
def powApply (b m : Nat) (acc : Nat) : PowOp → Nat
  | .square => acc * acc % m
  | .multiply => acc * b % m

/-- `b^e mod m` by the sequencer, for `m ≠ 0` (45_modpow.md R221). -/
def powMod (b e m : Nat) : Nat := (powOps e (bitlen e)).foldl (powApply b m) (1 % m)

end Sys2Proof.Machine
end

