-- ==== Sys2Proof/Machine/ModPow.lean ====
section
/-! DEFINITION. The modular exponentiation command (45_modpow.md). -/

namespace Sys2Proof.Machine

/-- MODPOW: `r[rd] <- (r[ra]^r[rb]) mod r[rc]` by the sequencer, DivisionByZero for a zero modulus (45_modpow.md R220). -/
def execModpow (rd ra rb rc : Reg) (s : State) : Outcome :=
  if s.r rc = 0 then fail .divisionByZero s
  else done (s.writeReg rd (powMod (s.r ra) (s.r rb) (s.r rc)))

end Sys2Proof.Machine
end

