-- ==== Sys2Proof/Machine/Sampler.lean ====
section
/-! DEFINITION. The uniform sampler (46_random.md R231 to R234) over any engine `draw : σ → σ × Nat`, and the block's own
engine as such a function (R233). -/

namespace Sys2Proof.Machine

open Sys2Proof.Config

/-- `M = high - low + 1` (46_random.md R231). -/
def rangeSize (low high : Nat) : Nat := high - low + 1

/-- `nb = bitlen(M - 1)` (46_random.md R231). -/
def rangeBits (m : Nat) : Nat := bitlen (m - 1)

/-- `k = ceil(nb / LIMB_W)` (46_random.md R231). -/
def drawsPerCandidate (w nb : Nat) : Nat := (nb + w - 1) / w

/-- `k` raw draws, the first as the least significant limb of the value (46_random.md R232). -/
def assemble {σ : Type} (draw : σ → σ × Nat) (w : Nat) : (k : Nat) → σ → σ × Nat
  | 0, e => (e, 0)
  | k + 1, e =>
    let first := draw e
    let rest := assemble draw w k first.1
    (rest.1, first.2 + rest.2 * 2 ^ w)

/-- `candidate()`: `k` draws masked to `nb` bits (46_random.md R232). -/
def candidate {σ : Type} (draw : σ → σ × Nat) (w k nb : Nat) (e : σ) : σ × Nat :=
  let v := assemble draw w k e
  (v.1, v.2 % 2 ^ nb)

/-- The rejection loop of 46_random.md R234, at most `tries` candidates: the engine after the accepted candidate and that
candidate, or none if all of them are rejected. -/
def firstAccepted {σ : Type} (cand : σ → σ × Nat) (m : Nat) : (tries : Nat) → σ → Option (σ × Nat)
  | 0, _ => none
  | tries + 1, e =>
    let c := cand e
    if c.2 < m then some c else firstAccepted cand m tries c.1

/-- How many candidates decide whether the loop ever ends: the engine has `2 ^ engineWidth` states, so after more
rejected candidates than that a state has come back, and every later candidate is one already rejected (log 3). -/
def enoughTries : Nat := 2 ^ engineWidth + 1

/-- `draw()` of the block's engine: `(ENG, o) <- RNG_STEP(ENG)` (46_random.md R233). -/
def rngDraw (p : Params) (e : EngineState) : EngineState × Nat :=
  let d := rngStep p.limbW.bits e
  (d.1, d.2.toNat)

/-- `sample(low, high)` for `low ≤ high`: the engine after it and the sampled value; none if no candidate is ever accepted
(46_random.md R234, 70_reset_and_hazards.md R297). -/
def sample (p : Params) (low high : Nat) (e : EngineState) : Option (EngineState × Nat) :=
  let m := rangeSize low high
  let nb := rangeBits m
  let k := drawsPerCandidate p.limbW.bits nb
  match firstAccepted (candidate (rngDraw p) p.limbW.bits k nb) m enoughTries e with
  | some (e', c) => some (e', low + c)
  | none => none

/-- `sample(0, MAX)`: its one candidate of NLIMB draws and BITS bits is always accepted (46_random.md R235). -/
def sampleFull (p : Params) (e : EngineState) : EngineState × Nat :=
  candidate (rngDraw p) p.limbW.bits p.nlimb p.bits e

end Sys2Proof.Machine
end

