-- ==== Sys2Proof/Machine/Random.lean ====
section
/-! DEFINITION. The random commands (46_random.md). -/

namespace Sys2Proof.Machine

open Sys2Proof.Config

/-- SEED: `ENG <- RNG_SEED(r[ra])` (46_random.md R230). -/
def execSeed (ra : Reg) (s : State) : Outcome := done (s.setEng (rngSeed s.params.bits s.regs[ra]))

/-- RAND: `r[rd] <- sample(0, MAX)` (46_random.md R235). -/
def execRand (rd : Reg) (s : State) : Outcome :=
  let d := sampleFull s.params s.eng
  done ((s.setEng d.1).writeReg rd d.2)

/-- URAND: `r[rd] <- sample(r[ra], r[rb])`, InvalidRange for `r[ra] > r[rb]`; it never returns where no candidate is ever
accepted (46_random.md R236, 70_reset_and_hazards.md R297; log 3). -/
def execUrand (rd ra rb : Reg) (s : State) : Outcome :=
  if s.r rb < s.r ra then fail .invalidRange s
  else
    match sample s.params (s.r ra) (s.r rb) s.eng with
    | some (e, v) => done ((s.setEng e).writeReg rd v)
    | none => .fault .samplingNeverAccepts

end Sys2Proof.Machine
end

