-- ==== Sys2Proof/Machine/Representation.lean ====
section
/-! DEFINITION. The representation commands MOV and LDI (40_representation.md). -/

namespace Sys2Proof.Machine

/-- MOV: `r[rd] <- r[ra]` (40_representation.md R120). -/
def execMov (rd ra : Reg) (s : State) : Outcome := done (s.writeReg rd (s.r ra))

/-- LDI: `r[rd] <- zext_BITS(imm16)` (40_representation.md R121). -/
def execLdi (rd : Reg) (imm16 : BitVec 16) (s : State) : Outcome := done (s.writeReg rd (immValue imm16))

end Sys2Proof.Machine
end

