-- ==== Sys2Proof/Machine/StatusCommand.lean ====
section
/-! DEFINITION. The status command (47_status.md). -/

namespace Sys2Proof.Machine

/-- CLRST: the four sticky bits and LAST to 0, CMP unchanged (47_status.md R250). -/
def execClrst (s : State) : Outcome := done { s with status := s.status.clearSticky }

end Sys2Proof.Machine
end

