-- ==== Sys2Proof/Machine/Dispatch.lean ====
section
/-! DEFINITION. One arm per command: each calls that command's own meaning. -/

namespace Sys2Proof.Machine

def exec (i : Instr) (s : State) : Host.Outcome State Fault Refusal :=
  match i with
  | .mov rd ra => Sys2Proof.Machine.execMov rd ra s
  | .ldi rd imm16 => Sys2Proof.Machine.execLdi rd imm16 s
  | .add rd ra rb => Sys2Proof.Machine.execAdd rd ra rb s
  | .sub rd ra rb => Sys2Proof.Machine.execSub rd ra rb s
  | .mul rd ra rb => Sys2Proof.Machine.execMul rd ra rb s
  | .mulw rd ra rb => Sys2Proof.Machine.execMulw rd ra rb s
  | .div rd ra rb => Sys2Proof.Machine.execDiv rd ra rb s
  | .rem rd ra rb => Sys2Proof.Machine.execRem rd ra rb s
  | .divrem rd rc ra rb => Sys2Proof.Machine.execDivrem rd rc ra rb s
  | .and rd ra rb => Sys2Proof.Machine.execAnd rd ra rb s
  | .or rd ra rb => Sys2Proof.Machine.execOr rd ra rb s
  | .xor rd ra rb => Sys2Proof.Machine.execXor rd ra rb s
  | .not rd ra => Sys2Proof.Machine.execNot rd ra s
  | .shl rd ra rb => Sys2Proof.Machine.execShl rd ra rb s
  | .shr rd ra rb => Sys2Proof.Machine.execShr rd ra rb s
  | .shli rd ra imm16 => Sys2Proof.Machine.execShli rd ra imm16 s
  | .shri rd ra imm16 => Sys2Proof.Machine.execShri rd ra imm16 s
  | .cmp ra rb => Sys2Proof.Machine.execCmp ra rb s
  | .cmpi ra imm16 => Sys2Proof.Machine.execCmpi ra imm16 s
  | .seq rd ra rb => Sys2Proof.Machine.execSeq rd ra rb s
  | .sne rd ra rb => Sys2Proof.Machine.execSne rd ra rb s
  | .slt rd ra rb => Sys2Proof.Machine.execSlt rd ra rb s
  | .sle rd ra rb => Sys2Proof.Machine.execSle rd ra rb s
  | .sgt rd ra rb => Sys2Proof.Machine.execSgt rd ra rb s
  | .sge rd ra rb => Sys2Proof.Machine.execSge rd ra rb s
  | .parse rd => Sys2Proof.Machine.execParse rd s
  | .fmtd ra => Sys2Proof.Machine.execFmtd ra s
  | .fmth ra => Sys2Proof.Machine.execFmth ra s
  | .modpow rd ra rb rc => Sys2Proof.Machine.execModpow rd ra rb rc s
  | .seed ra => Sys2Proof.Machine.execSeed ra s
  | .rand rd => Sys2Proof.Machine.execRand rd s
  | .urand rd ra rb => Sys2Proof.Machine.execUrand rd ra rb s
  | .clrst => Sys2Proof.Machine.execClrst s

end Sys2Proof.Machine
end

