-- ==== Sys2Proof/Machine/Transactions.lean ====
section
/-! DEFINITION. What the block does for each host transaction (20_memory.md R60 to R70). -/

namespace Sys2Proof.Machine

/-- The command a word spells is performed; a word that spells none raises IllegalCommand before any operand is read
(20_memory.md R60, 30_encoding.md R100, 60_exceptions.md R264). -/
def runCommand (w : CommandWord) (s : State) : Outcome :=
  match decode w with
  | .command i => exec i s
  | .illegal _ => fail .illegalCommand s

/-- H_CMD: the response is `STATUS.LAST` as the command wrote it (20_memory.md R60). -/
def hCmd (w : CommandWord) (s : State) : Outcome :=
  match runCommand w s with
  | .next t => .next (t.respond (.code t.status.lastCode))
  | .fault f => .fault f
  | .refused r => .refused r

/-- H_RREG (20_memory.md R61). -/
def hRreg (i : Reg) (s : State) : Outcome := .next (s.respond (.value (s.r i)))

/-- H_WREG: `r[i] <- v`; the transaction's type admits no value above MAX (20_memory.md R62; log 8). -/
def hWreg (i : Reg) (v : Nat) (s : State) : Outcome :=
  if v < 2 ^ s.params.bits then .next ((s.writeReg i v).respond .done) else .refused .payloadTooWide

/-- H_RLIMB: refused for `j ≥ NLIMB` (20_memory.md R63). -/
def hRlimb (i : Reg) (j : Nat) (s : State) : Outcome :=
  if j < s.params.nlimb then .next (s.respond (.limb (limb s.params.limbW.bits (s.r i) j)))
  else .next (s.respond .refused)

/-- H_WLIMB: limb `j` becomes `x`; refused for `j ≥ NLIMB` (20_memory.md R64; log 8). -/
def hWlimb (i : Reg) (j x : Nat) (s : State) : Outcome :=
  if x < 2 ^ s.params.limbW.bits then
    if j < s.params.nlimb then
      .next ((s.writeReg i (withLimb s.params.limbW.bits (s.r i) j x)).respond .done)
    else .next (s.respond .refused)
  else .refused .payloadTooWide

/-- H_WTXT: refused for a text longer than TXT_CAP; no character is checked (20_memory.md R65). -/
def hWtxt (text : List Byte) (s : State) : Outcome :=
  if text.length ≤ s.params.txtCap then .next ((s.setTxt text).respond .done) else .next (s.respond .refused)

/-- H_RTXT (20_memory.md R66). -/
def hRtxt (s : State) : Outcome := .next (s.respond (.text s.txt))

/-- H_RSTATUS (20_memory.md R67). -/
def hRstatus (s : State) : Outcome := .next (s.respond (.status s.status.word))

/-- H_WNAT: the 64-bit pattern, zero-extended (20_memory.md R68). -/
def hWnat (i : Reg) (n : BitVec 64) (s : State) : Outcome := .next ((s.writeReg i n.toNat).respond .done)

/-- The block after reset, in a run whose host has issued `s.pending` (70_reset_and_hazards.md R293). -/
def State.afterReset (s : State) : State := { State.resetFor s.params with pending := s.pending }

/-- H_RESET (20_memory.md R69, 70_reset_and_hazards.md R293). -/
def hReset (s : State) : Outcome := .next (s.afterReset.respond .done)

/-- H_RESET while an H_CMD runs: the command is abandoned, it returns no code, and reset overwrites every piece of state
(70_reset_and_hazards.md R293; log 6). The response is the one of the H_RESET. -/
def hCmdAbandoned (_w : CommandWord) (s : State) : Outcome := hReset s

/-- One transaction (20_memory.md §1). -/
def perform (tx : HostTransaction) (s : State) : Outcome :=
  match tx with
  | .hCmd w => hCmd w s
  | .hRreg i => hRreg i s
  | .hWreg i v => hWreg i v s
  | .hRlimb i j => hRlimb i j s
  | .hWlimb i j x => hWlimb i j x s
  | .hWtxt text => hWtxt text s
  | .hRtxt => hRtxt s
  | .hRstatus => hRstatus s
  | .hWnat i n => hWnat i n s
  | .hReset => hReset s
  | .hCmdAbandoned w => hCmdAbandoned w s

/-- The block takes the oldest issued transaction and performs it (20_memory.md R76). With none issued it is idle and keeps
all of its state (60_exceptions.md R277; log 5). A second host's transaction is refused (60_exceptions.md R275; log 7). -/
def serve (s : State) : Outcome :=
  match s.pending with
  | [] => .next s
  | req :: rest =>
    match req.issuer with
    | .host => perform req.tx { s with pending := rest }
    | .other => .refused .secondHost

end Sys2Proof.Machine
end

