-- ==== Sys2Proof/Machine/Step.lean ====
section
/-! DEFINITION. One step: the block performs the oldest transaction its host has issued, atomically
(20_memory.md R76, 70_reset_and_hazards.md R290). -/

namespace Sys2Proof.Machine

/-- One atomic step. -/
def step (s : State) : Host.Outcome State Fault Refusal := serve s

/-- `s` with an H_CMD of the host in front of everything it has issued: the block has no program counter and stores no
commands, it performs each command when the host presents it (10_state.md R36; log 4). A value wider than a command word
is no command and leaves `s` as it is. -/
def State.withFetchWord (s : State) (nbits w : Nat) : State :=
  match tableWord nbits w with
  | some word => { s with pending := ⟨.host, .hCmd word⟩ :: s.pending }
  | none => s

end Sys2Proof.Machine
end

