-- ==== Sys2Proof/Machine/Assembler.lean ====
section
/-! DEFINITION. The assembler of WIC-1: its pseudo-instructions (30_encoding.md R102), its line syntax (R101), and running a
sequence of commands, which is what a pseudo-instruction stands for. It is tooling: the block itself sees command words. -/

namespace Sys2Proof.Machine

/-! ## Pseudo-instructions (30_encoding.md R102) -/

/-- The pseudo-instructions, operands in the order of 30_encoding.md R102. -/
inductive Pseudo where
  | clr (rd : Reg)
  | setmax (rd : Reg)
  | inc (rd rt : Reg)
  | dec (rd rt : Reg)
  | neg (rd ra rt : Reg)
  | li (rd rt : Reg) (v : Nat)
  deriving DecidableEq, Repr

/-- "A scratch register `rt` must differ from `rd`", and LI takes a value of `bits` bits (30_encoding.md R102). -/
def Pseudo.wellFormed (bits : Nat) : Pseudo → Bool
  | .clr _ => true
  | .setmax _ => true
  | .inc rd rt => rt != rd
  | .dec rd rt => rt != rd
  | .neg rd _ rt => rt != rd
  | .li rd rt v => rt != rd && decide (v < 2 ^ bits)

/-- `c_j = (V >> 16j) mod 2^16`. -/
def liChunk (v j : Nat) : BitVec 16 := BitVec.ofNat 16 (v / 2 ^ (16 * j))

/-- The commands of LI for the chunks below `j`, highest first. -/
def liTail (rd rt : Reg) (v : Nat) : (j : Nat) → List Instr
  | 0 => []
  | j + 1 => .shli rd rd 16 :: .ldi rt (liChunk v j) :: .or rd rd rt :: liTail rd rt v j

/-- `m = max(1, ceil(bitlen(V)/16))`. -/
def liChunks (v : Nat) : Nat := max 1 ((bitlen v + 15) / 16)

/-- The commands a pseudo-instruction expands to (30_encoding.md R102). -/
def Pseudo.expand : Pseudo → List Instr
  | .clr rd => [.ldi rd 0]
  | .setmax rd => [.ldi rd 0, .not rd rd]
  | .inc rd rt => [.ldi rt 1, .add rd rd rt]
  | .dec rd rt => [.ldi rt 1, .sub rd rd rt]
  | .neg rd ra rt => [.not rd ra, .ldi rt 1, .add rd rd rt]
  | .li rd rt v => .ldi rd (liChunk v (liChunks v - 1)) :: liTail rd rt v (liChunks v - 1)

/-- Commands performed one after the other, each seeing every effect of the earlier ones (20_memory.md R76). -/
def execAll : List Instr → State → Outcome
  | [], s => .next s
  | i :: is, s =>
    match exec i s with
    | .next t => execAll is t
    | .fault f => .fault f
    | .refused r => .refused r

/-! ## Lines (30_encoding.md R101; log 20) -/

/-- An operand as written. -/
inductive Operand where
  | reg (r : Reg)
  | num (n : Nat)
  deriving DecidableEq, Repr

/-- The ASCII bytes of a list of characters. -/
def ascii (cs : List Char) : List Byte := cs.map fun c => BitVec.ofNat 8 c.toNat

def isBlank (c : Byte) : Bool := c == 0x20#8 || c == 0x09#8

def trimBlanks (t : List Byte) : List Byte := ((t.dropWhile isBlank).reverse.dropWhile isBlank).reverse

/-- Mnemonics are case-insensitive. -/
def upperCase (c : Byte) : Byte := if 0x61 ≤ c.toNat ∧ c.toNat ≤ 0x7A then c - 0x20#8 else c

/-- The text before a `;`. -/
def dropComment (t : List Byte) : List Byte := t.takeWhile fun c => c != 0x3B#8

/-- The parts of a text between its commas. -/
def splitCommas : List Byte → List (List Byte)
  | [] => [[]]
  | c :: cs =>
    if c = 0x2C#8 then [] :: splitCommas cs
    else
      match splitCommas cs with
      | [] => [[c]]
      | part :: parts => (c :: part) :: parts

/-- `r0` to `r15`. -/
def registerOperand : List Byte → Option Reg
  | [0x72#8, d] => if 0x30 ≤ d.toNat ∧ d.toNat ≤ 0x39 then some (Fin.ofNat 16 (d.toNat - 0x30)) else none
  | [0x72#8, 0x31#8, d] => if 0x30 ≤ d.toNat ∧ d.toNat ≤ 0x35 then some (Fin.ofNat 16 (d.toNat - 0x30 + 10)) else none
  | _ => none

/-- A number in decimal, or in hexadecimal with a `0x` prefix. -/
def numberOperand (t : List Byte) : Option Nat :=
  match t with
  | _ :: 0x58#8 :: _ => none
  | _ =>
    match literal t with
    | some (base, vs) => some (vs.foldl (fun acc v => acc * base + v) 0)
    | none => none

def parseOperand (t : List Byte) : Option Operand :=
  match registerOperand t with
  | some r => some (.reg r)
  | none =>
    match numberOperand t with
    | some n => some (.num n)
    | none => none

def parseOperands : List (List Byte) → Option (List Operand)
  | [] => some []
  | p :: ps =>
    match parseOperand (trimBlanks p), parseOperands ps with
    | some o, some os => some (o :: os)
    | _, _ => none

/-! The operand shapes of 30_encoding.md R95; an immediate outside 0 to 65535 is an assembly error (R101). -/

def shapeNone (i : Instr) : List Operand → Option (List Instr)
  | [] => some [i]
  | _ => none

def shape1 (f : Reg → Instr) : List Operand → Option (List Instr)
  | [.reg a] => some [f a]
  | _ => none

def shape2 (f : Reg → Reg → Instr) : List Operand → Option (List Instr)
  | [.reg a, .reg b] => some [f a b]
  | _ => none

def shape3 (f : Reg → Reg → Reg → Instr) : List Operand → Option (List Instr)
  | [.reg a, .reg b, .reg c] => some [f a b c]
  | _ => none

def shape4 (f : Reg → Reg → Reg → Reg → Instr) : List Operand → Option (List Instr)
  | [.reg a, .reg b, .reg c, .reg d] => some [f a b c d]
  | _ => none

def shape1Imm (f : Reg → BitVec 16 → Instr) : List Operand → Option (List Instr)
  | [.reg a, .num n] => if n < 2 ^ 16 then some [f a (BitVec.ofNat 16 n)] else none
  | _ => none

def shape2Imm (f : Reg → Reg → BitVec 16 → Instr) : List Operand → Option (List Instr)
  | [.reg a, .reg b, .num n] => if n < 2 ^ 16 then some [f a b (BitVec.ofNat 16 n)] else none
  | _ => none

/-- A pseudo-instruction's expansion, or an assembly error where its constraint fails. -/
def expandChecked (bits : Nat) (p : Pseudo) : Option (List Instr) :=
  if p.wellFormed bits then some p.expand else none

def pseudoLine (bits : Nat) (name : List Byte) (ops : List Operand) : Option (List Instr) :=
  if name = ascii ['C', 'L', 'R'] then
    match ops with
    | [.reg rd] => expandChecked bits (.clr rd)
    | _ => none
  else if name = ascii ['S', 'E', 'T', 'M', 'A', 'X'] then
    match ops with
    | [.reg rd] => expandChecked bits (.setmax rd)
    | _ => none
  else if name = ascii ['I', 'N', 'C'] then
    match ops with
    | [.reg rd, .reg rt] => expandChecked bits (.inc rd rt)
    | _ => none
  else if name = ascii ['D', 'E', 'C'] then
    match ops with
    | [.reg rd, .reg rt] => expandChecked bits (.dec rd rt)
    | _ => none
  else if name = ascii ['N', 'E', 'G'] then
    match ops with
    | [.reg rd, .reg ra, .reg rt] => expandChecked bits (.neg rd ra rt)
    | _ => none
  else if name = ascii ['L', 'I'] then
    match ops with
    | [.reg rd, .reg rt, .num v] => expandChecked bits (.li rd rt v)
    | _ => none
  else none

/-- The mnemonics of 30_encoding.md R95 with their operand shapes. DESIGN CHOICE (log 20): a line that spells a DIVREM with
`rd = rc` or a MULW with an odd `rd` assembles to that term, whose word raises IllegalCommand (R97); the spec names only a
wrong immediate as an assembly error (R101). -/
def commandLines : List (List Char × (List Operand → Option (List Instr))) :=
  [(['M', 'O', 'V'], shape2 .mov), (['L', 'D', 'I'], shape1Imm .ldi), (['A', 'D', 'D'], shape3 .add),
   (['S', 'U', 'B'], shape3 .sub), (['M', 'U', 'L'], shape3 .mul), (['M', 'U', 'L', 'W'], shape3 .mulw),
   (['D', 'I', 'V'], shape3 .div), (['R', 'E', 'M'], shape3 .rem), (['D', 'I', 'V', 'R', 'E', 'M'], shape4 .divrem),
   (['A', 'N', 'D'], shape3 .and), (['O', 'R'], shape3 .or), (['X', 'O', 'R'], shape3 .xor),
   (['N', 'O', 'T'], shape2 .not), (['S', 'H', 'L'], shape3 .shl), (['S', 'H', 'R'], shape3 .shr),
   (['S', 'H', 'L', 'I'], shape2Imm .shli), (['S', 'H', 'R', 'I'], shape2Imm .shri)] ++
  [(['C', 'M', 'P'], shape2 .cmp), (['C', 'M', 'P', 'I'], shape1Imm .cmpi), (['S', 'E', 'Q'], shape3 .seq),
   (['S', 'N', 'E'], shape3 .sne), (['S', 'L', 'T'], shape3 .slt), (['S', 'L', 'E'], shape3 .sle),
   (['S', 'G', 'T'], shape3 .sgt), (['S', 'G', 'E'], shape3 .sge), (['P', 'A', 'R', 'S', 'E'], shape1 .parse),
   (['F', 'M', 'T', 'D'], shape1 .fmtd), (['F', 'M', 'T', 'H'], shape1 .fmth),
   (['M', 'O', 'D', 'P', 'O', 'W'], shape4 .modpow), (['S', 'E', 'E', 'D'], shape1 .seed),
   (['R', 'A', 'N', 'D'], shape1 .rand), (['U', 'R', 'A', 'N', 'D'], shape3 .urand),
   (['C', 'L', 'R', 'S', 'T'], shapeNone .clrst)]

def commandLine (name : List Byte) (ops : List Operand) :
    List (List Char × (List Operand → Option (List Instr))) → Option (List Instr)
  | [] => none
  | (mnemonic, shape) :: rest => if name = ascii mnemonic then shape ops else commandLine name ops rest

/-- The commands one line assembles to on an instance of `bits` bits; none for an assembly error, no command for an empty
line (30_encoding.md R101, R102; log 20). -/
def assembleLine (bits : Nat) (line : List Byte) : Option (List Instr) :=
  let text := trimBlanks (dropComment line)
  let name := (text.takeWhile fun c => !isBlank c).map upperCase
  let tail := trimBlanks (text.dropWhile fun c => !isBlank c)
  if text = [] then some []
  else
    match parseOperands (if tail = [] then [] else splitCommas tail) with
    | none => none
    | some ops =>
      match commandLine name ops commandLines with
      | some is => some is
      | none => pseudoLine bits name ops

end Sys2Proof.Machine
end

