-- ==== Sys2Proof/Machine/Limbs.lean ====
section
/-! DEFINITION. The limb-level engines the spec describes as the block's structure: the carry chain (41_arith.md R130), the
borrow chain (R132), the schoolbook multiplier (R134), the shift-compare-subtract divider (R137), the barrel shifter
(42_bitwise_shift.md R164) and the limb comparison (43_compare.md R188). They cannot be observed (70_reset_and_hazards.md
R290); the commands use the values these engines "must produce". `w` is LIMB_W and `n` is NLIMB. -/

namespace Sys2Proof.Machine

/-- The limbs of `v`, least significant first (00_scope.md R12). -/
def limbsOf (w n v : Nat) : List Nat := (List.range n).map (limb w v)

/-- `Σ limb_j * 2^(j*w)` (00_scope.md R12). -/
def ofLimbs (w : Nat) : List Nat → Nat
  | [] => 0
  | x :: xs => x + 2 ^ w * ofLimbs w xs

/-- The carry chain over two limb lists, with carry in `c`: the result limbs and the carry out (41_arith.md R130). -/
def carryChain (w : Nat) : (c : Nat) → List Nat → List Nat → List Nat × Nat
  | c, x :: xs, y :: ys =>
    let t := x + y + c
    let rest := carryChain w (t / 2 ^ w) xs ys
    (t % 2 ^ w :: rest.1, rest.2)
  | c, _, _ => ([], c)

/-- The adder: the final carry is discarded (41_arith.md R130). -/
def adder (w n x y : Nat) : Nat := ofLimbs w (carryChain w 0 (limbsOf w n x) (limbsOf w n y)).1

/-- The borrow chain over two limb lists, with borrow in `b`: the result limbs and the borrow out (41_arith.md R132). -/
def borrowChain (w : Nat) : (b : Nat) → List Nat → List Nat → List Nat × Nat
  | b, x :: xs, y :: ys =>
    let t : Int := (x : Int) - (y : Int) - (b : Int)
    if t < 0 then
      let rest := borrowChain w 1 xs ys
      ((t + 2 ^ w).toNat :: rest.1, rest.2)
    else
      let rest := borrowChain w 0 xs ys
      (t.toNat :: rest.1, rest.2)
  | b, _, _ => ([], b)

/-- The subtractor: the final borrow is discarded (41_arith.md R132). -/
def subtractor (w n x y : Nat) : Nat := ofLimbs w (borrowChain w 0 (limbsOf w n x) (limbsOf w n y)).1

/-- The multiplier's accumulator after all partial products `limb(x, i) * limb(y, j)` (41_arith.md R134). -/
def multiplier (w n x y : Nat) : Nat :=
  (List.range n).foldl
    (fun acc i => (List.range n).foldl (fun acc j => acc + limb w x i * limb w y j * 2 ^ ((i + j) * w)) acc) 0

/-- The truncating multiplier that skips the partial products with `i + j ≥ NLIMB` (41_arith.md R134). -/
def multiplierLow (w n x y : Nat) : Nat :=
  (List.range n).foldl
    (fun acc i => (List.range (n - i)).foldl (fun acc j => acc + limb w x i * limb w y j * 2 ^ ((i + j) * w)) acc) 0
    % 2 ^ (n * w)

/-- The division loop over the bits of `x` below `i`, most significant first, from quotient `q` and remainder `rm`
(41_arith.md R137). -/
def divideBits (x d : Nat) : (i : Nat) → (q rm : Nat) → Nat × Nat
  | 0, q, rm => (q, rm)
  | i + 1, q, rm =>
    let rm' := 2 * rm + x / 2 ^ i % 2
    if d ≤ rm' then divideBits x d i (q + 2 ^ i) (rm' - d) else divideBits x d i q rm'

/-- The division engine: quotient and remainder (41_arith.md R137). -/
def divider (bits x d : Nat) : Nat × Nat := divideBits x d bits 0 0

/-- `limb(x, k)` with 0 outside `0 ≤ k < NLIMB` (42_bitwise_shift.md R164). -/
def limbAt (w n x : Nat) (k : Int) : Nat := if 0 ≤ k ∧ k < n then limb w x k.toNat else 0

/-- The barrel shifter to the left: whole limbs by `L`, then bits by `b` (42_bitwise_shift.md R164). -/
def barrelLeft (w n x s : Nat) : Nat :=
  if n * w ≤ s then 0
  else
    let l := s / w
    let b := s % w
    ofLimbs w ((List.range n).map fun j =>
      (limbAt w n x (j - l : Int) * 2 ^ b) % 2 ^ w
        ||| (if b = 0 then 0 else limbAt w n x (j - l - 1 : Int) / 2 ^ (w - b)))

/-- The barrel shifter to the right (42_bitwise_shift.md R164). -/
def barrelRight (w n x s : Nat) : Nat :=
  if n * w ≤ s then 0
  else
    let l := s / w
    let b := s % w
    ofLimbs w ((List.range n).map fun j =>
      limbAt w n x (j + l : Int) / 2 ^ b
        ||| (if b = 0 then 0 else (limbAt w n x (j + l + 1 : Int) * 2 ^ (w - b)) % 2 ^ w))

/-- The comparison of the limbs below `j`, most significant first (43_compare.md R188). -/
def limbOrder (w x y : Nat) : (j : Nat) → Ordering
  | 0 => .eq
  | j + 1 =>
    if limb w x j < limb w y j then .lt
    else if limb w y j < limb w x j then .gt
    else limbOrder w x y j

/-- A bitwise operator applied limb by limb, "with no carry" (42_bitwise_shift.md R160). -/
def limbwise (op : Nat → Nat → Nat) (w n x y : Nat) : Nat :=
  ofLimbs w ((List.range n).map fun j => op (limb w x j) (limb w y j))

end Sys2Proof.Machine
end

