-- ==== Sys2Proof/Safety.lean ====
section
/-! DEFINITION. The terms claims about the block are stated in: what a command leaves alone, what an error leaves, the
invariant of the text buffer, the draws of an engine, and literal text as a relation. They are written from the spec, beside
the machine and not out of it. -/

namespace Sys2Proof.Safety

open Sys2Proof.Machine Sys2Proof.Config

/-! ## Frames -/

/-- `t` agrees with `s` on the instance, on every register outside `ds`, and on the host's side. -/
structure Keeps (ds : List Reg) (s t : State) : Prop where
  params : t.params = s.params
  regs : ∀ i, i ∉ ds → t.r i = s.r i
  pending : t.pending = s.pending
  response : t.response = s.response

/-- A command that completed has written registers `ds` and `LAST <- 0`, and nothing else. -/
structure WritesOnly (ds : List Reg) (s t : State) : Prop extends Keeps ds s t where
  txt : t.txt = s.txt
  eng : t.eng = s.eng
  status : t.status = { s.status with last := none }

/-- "The state after a failed command differs from the state before it only in STATUS" (60_exceptions.md R262): the sticky
bit of `e` is set, the other sticky bits and CMP are as before, and LAST holds `e`. -/
structure Raises (e : ErrorKind) (s t : State) : Prop where
  onlyStatus : t = { s with status := t.status }
  dz : t.status.dz = (s.status.dz || e == .divisionByZero)
  il : t.status.il = (s.status.il || e == .invalidLiteral)
  ic : t.status.ic = (s.status.ic || e == .illegalCommand)
  ir : t.status.ir = (s.status.ir || e == .invalidRange)
  cmp : t.status.cmp = s.status.cmp
  last : t.status.last = some e

/-! ## Encodings -/

/-- A word with opcode `op` spells `command w` if the bits `zero` of it are all 0, and otherwise raises IllegalCommand
(30_encoding.md R91, R94). -/
def DecodesAs (op : BitVec 8) (zero : CommandWord) (command : CommandWord → Instr) : Prop :=
  ∀ w, fieldOp w = op →
    (w &&& zero = 0 → decode w = .command (command w)) ∧
      (w &&& zero ≠ 0 → ∀ s, ∃ t, runCommand w s = .next t ∧ Raises .illegalCommand s t)

/-! ## The invariant -/

/-- `0 ≤ TXTLEN ≤ TXT_CAP` (10_state.md R43). -/
def TextFits (s : State) : Prop := s.txt.length ≤ s.params.txtCap

/-! ## Draws (46_random.md) -/

/-- The engine after `n` raw draws from `e` (46_random.md R233). -/
def engineAfter (p : Params) : (n : Nat) → EngineState → EngineState
  | 0, e => e
  | n + 1, e => engineAfter p n (rngStep p.limbW.bits e).1

/-- The raw output `o_j` of an engine that stands at `e` (46_random.md R233). -/
def rawOutput (p : Params) (e : EngineState) (j : Nat) : Nat :=
  (rngStep p.limbW.bits (engineAfter p j e)).2.toNat

/-- The `n`-th candidate of `k` draws and `nb` bits from `e`, counting from 0: `(Σ_j o_j * 2^(j*LIMB_W)) mod 2^nb` over its
own draws, the first as the least significant limb (46_random.md R232). -/
def candidateAt (p : Params) (k nb : Nat) (e : EngineState) (n : Nat) : Nat :=
  (∑ j ∈ Finset.range k, rawOutput p e (n * k + j) * 2 ^ (j * p.limbW.bits)) % 2 ^ nb

/-! ## Literal text (44_literal.md R200) -/

/-- Byte `c` is a digit of `base` with value `v`. -/
inductive IsDigit : (base : Nat) → (c : Byte) → (v : Nat) → Prop where
  | decimal {c : Byte} : 0x30 ≤ c.toNat → c.toNat ≤ 0x39 → IsDigit 10 c (c.toNat - 0x30)
  | hexDecimal {c : Byte} : 0x30 ≤ c.toNat → c.toNat ≤ 0x39 → IsDigit 16 c (c.toNat - 0x30)
  | hexLower {c : Byte} : 0x61 ≤ c.toNat → c.toNat ≤ 0x66 → IsDigit 16 c (c.toNat - 0x61 + 10)
  | hexUpper {c : Byte} : 0x41 ≤ c.toNat → c.toNat ≤ 0x46 → IsDigit 16 c (c.toNat - 0x41 + 10)

/-- The text begins with `0x` or `0X`. -/
def HasPrefix (t : List Byte) : Prop := ∃ rest, t = 0x30#8 :: 0x78#8 :: rest ∨ t = 0x30#8 :: 0x58#8 :: rest

/-- The text is a literal of `base` with digit values `vs`. -/
def Spells (t : List Byte) (base : Nat) (vs : List Nat) : Prop :=
  vs ≠ [] ∧
    ((HasPrefix t ∧ base = 16 ∧ List.Forall₂ (IsDigit 16) (t.drop 2) vs) ∨
      (¬ HasPrefix t ∧ base = 10 ∧ List.Forall₂ (IsDigit 10) t vs))

/-- `(Σ_k v_k * base^(m−1−k))` over the digits, first to last (44_literal.md R201). -/
def digitSum (base : Nat) (vs : List Nat) : Nat := Nat.ofDigits base vs.reverse

/-- The character of a digit value, `0` to `9` and `A` to `F`. -/
def charOf (d : Nat) : Byte := if d < 10 then BitVec.ofNat 8 (0x30 + d) else BitVec.ofNat 8 (0x41 + d - 10)

/-- The digits of `x` in `base`, most significant first, without leading zeros, `"0"` for 0. -/
def canonicalDigits (base x : Nat) : List Byte :=
  if x = 0 then [charOf 0] else ((Nat.digits base x).reverse).map charOf

/-! ## Runs -/

/-- `k` steps from `s` all have a next state: no URAND among them hangs and no transaction is refused a meaning
(70_reset_and_hazards.md R298). -/
def RunsFor (k : Nat) (s : State) : Prop := ∃ t, Host.Core.run Sys2Proof.core k s = .next t

end Sys2Proof.Safety
end

