-- ==== Sys2Proof/Certificates/Slice0/Obligations.lean ====
section
/-! DEFINITION. The statements about the block, from the numbered rules of spec/. -/

open Sys2Proof Sys2Proof.Machine Sys2Proof.Safety Sys2Proof.Config

/-! ## Reset, the step and the host -/

/-- Reset gives every piece of state the value 10_state.md R48 lists, on every instance. -/
def Obligations.ResetGivesTheListedValues : Prop :=
  ∀ p : Params,
    (State.resetFor p).params = p ∧ (∀ i, (State.resetFor p).r i = 0) ∧ (State.resetFor p).status.word = 0 ∧
      (State.resetFor p).txtLen = 0 ∧ (State.resetFor p).txt = [] ∧
      (State.resetFor p).eng = rngSeed p.bits (rngDefaultSeed p.bits)

/-- H_RESET, issued between transactions or while any H_CMD runs, resets every piece of state whatever it was, and an
abandoned command returns no code (20_memory.md R69, 70_reset_and_hazards.md R293). That the pair of an H_CMD and the
H_RESET issued while it runs is ONE entry of the host's list is the model's choice (log 6), and so is the clause that the
reset keeps what the host has issued after it, `t.pending = rest` (log 4). -/
def Obligations.HostResetOverwritesEverything : Prop :=
  ∀ (s : State) (tx : HostTransaction) (rest : List Request),
    (tx = .hReset ∨ ∃ w, tx = .hCmdAbandoned w) → s.pending = ⟨.host, tx⟩ :: rest →
      ∃ t, step s = .next t ∧ t.params = s.params ∧ (∀ i, t.r i = 0) ∧ t.status.word = 0 ∧ t.txt = [] ∧
        t.eng = rngSeed s.params.bits (rngDefaultSeed s.params.bits) ∧ t.pending = rest ∧
        ∀ c, t.response ≠ some (.code c)

/-- A step runs the decoded command: when the oldest issued transaction is an H_CMD whose word decodes to a command, the
step is exec of that command, and the response is `STATUS.LAST` as that command wrote it (20_memory.md R60).
That the issued transactions stand in a list is the model's choice (log 4). -/
def Obligations.StepPerformsTheDecodedCommand : Prop :=
  ∀ (s : State) (w : CommandWord) (rest : List Request) (i : Instr),
    s.pending = ⟨.host, .hCmd w⟩ :: rest → decode w = .command i →
      step s = (match exec i { s with pending := rest } with
        | .next t => .next { t with response := some (.code t.status.lastCode) }
        | .fault f => .fault f
        | .refused r => .refused r)

/-- A word that decodes to no command raises IllegalCommand: the step changes only STATUS (and the host's side), and
responds code 3 (60_exceptions.md R264, R262). -/
def Obligations.StepRaisesIllegalCommand : Prop :=
  ∀ (s : State) (w : CommandWord) (rest : List Request) (why : DecodeFault),
    s.pending = ⟨.host, .hCmd w⟩ :: rest → decode w = .illegal why →
      ∃ t, Raises .illegalCommand { s with pending := rest } t ∧ t.status.lastCode = 3 ∧
        step s = .next { t with response := some (.code 3) }

/-- A second host's transaction is refused, also when it stands alone; with no transaction issued the block keeps all of its
state; a payload that its transaction's type does not admit is no transaction. All three are the model's own choices (log 7,
log 5, log 8): 60_exceptions.md R275 asks for the refusal of two hosts that interleave, R277 says that an idle block keeps
its state, and 20_memory.md R62 and R64 that the types admit no wider value. -/
def Obligations.StepsOutsideTheOneHostsTransactions : Prop :=
  (∀ (s : State) (tx : HostTransaction) (rest : List Request),
    s.pending = ⟨.other, tx⟩ :: rest → step s = .refused .secondHost) ∧
  (∀ s : State, s.pending = [] → step s = .next s) ∧
  (∀ (s : State) (i : Reg) (v : Nat) (rest : List Request), s.pending = ⟨.host, .hWreg i v⟩ :: rest →
    2 ^ s.params.bits ≤ v → step s = .refused .payloadTooWide) ∧
  (∀ (s : State) (i : Reg) (j x : Nat) (rest : List Request), s.pending = ⟨.host, .hWlimb i j x⟩ :: rest →
    2 ^ s.params.limbW.bits ≤ x → step s = .refused .payloadTooWide)

/-- Transactions take effect one at a time, in issue order: a step takes exactly the oldest one from the host's list
(20_memory.md R76). That they stand in a list, and that an H_RESET too keeps the later ones, is the model's choice (log 4). -/
def Obligations.StepTakesTheOldestTransaction : Prop :=
  ∀ (s t : State) (req : Request) (rest : List Request),
    s.pending = req :: rest → step s = .next t → t.pending = rest

/-- H_RREG, H_RTXT and H_RSTATUS return their value and change no state (20_memory.md R61, R66, R67). -/
def Obligations.HostReadsReturnStateUnchanged : Prop :=
  (∀ (s : State) (i : Reg) (rest : List Request), s.pending = ⟨.host, .hRreg i⟩ :: rest →
    step s = .next { s with pending := rest, response := some (.value (s.r i)) }) ∧
  (∀ (s : State) (rest : List Request), s.pending = ⟨.host, .hRtxt⟩ :: rest →
    step s = .next { s with pending := rest, response := some (.text s.txt) }) ∧
  (∀ (s : State) (rest : List Request), s.pending = ⟨.host, .hRstatus⟩ :: rest →
    step s = .next { s with pending := rest, response := some (.status s.status.word) })

/-- H_WREG and H_WNAT set one register, the native pattern zero-extended, and change nothing else; STATUS is never written
(20_memory.md R62, R68, R70). -/
def Obligations.HostWritesOneRegister : Prop :=
  ∀ (s : State) (tx : HostTransaction) (i : Reg) (v : Nat) (rest : List Request),
    (tx = .hWreg i v ∧ v < 2 ^ s.params.bits ∨ ∃ n : BitVec 64, tx = .hWnat i n ∧ v = n.toNat) →
      s.pending = ⟨.host, tx⟩ :: rest →
        ∃ t, step s = .next t ∧ t.r i = v ∧ (∀ j, j ≠ i → t.r j = s.r j) ∧ t.params = s.params ∧
          t.status = s.status ∧ t.txt = s.txt ∧ t.eng = s.eng

/-- H_WLIMB makes limb `j` equal to `x` and leaves every other limb and register; H_RLIMB reads limb `j`; both are refused
for `j ≥ NLIMB` and then change no state (20_memory.md R63, R64, R70). -/
def Obligations.LimbAccessReachesOneLimb : Prop :=
  (∀ (s : State) (i : Reg) (j x : Nat) (rest : List Request),
    s.pending = ⟨.host, .hWlimb i j x⟩ :: rest → x < 2 ^ s.params.limbW.bits →
      (j < s.params.nlimb → ∃ t, step s = .next t ∧ limb s.params.limbW.bits (t.r i) j = x ∧
        (∀ k, k < s.params.nlimb → k ≠ j →
          limb s.params.limbW.bits (t.r i) k = limb s.params.limbW.bits (s.r i) k) ∧
        (∀ k, k ≠ i → t.r k = s.r k) ∧ t.params = s.params ∧ t.status = s.status ∧ t.txt = s.txt ∧ t.eng = s.eng) ∧
      (s.params.nlimb ≤ j → step s = .next { s with pending := rest, response := some .refused })) ∧
  (∀ (s : State) (i : Reg) (j : Nat) (rest : List Request), s.pending = ⟨.host, .hRlimb i j⟩ :: rest →
    (j < s.params.nlimb →
      step s = .next { s with pending := rest, response := some (.limb (limb s.params.limbW.bits (s.r i) j)) }) ∧
    (s.params.nlimb ≤ j → step s = .next { s with pending := rest, response := some .refused }))

/-- H_WTXT stores a text of at most TXT_CAP bytes as given, and is refused with no change of state for a longer one
(20_memory.md R65). -/
def Obligations.HostTextIsStoredOrRefused : Prop :=
  ∀ (s : State) (text : List Byte) (rest : List Request), s.pending = ⟨.host, .hWtxt text⟩ :: rest →
    (text.length ≤ s.params.txtCap → ∃ t, step s = .next t ∧ t.txt = text ∧ t.txtLen = text.length ∧
      t.params = s.params ∧ (∀ i, t.r i = s.r i) ∧ t.status = s.status ∧ t.eng = s.eng) ∧
    (s.params.txtCap < text.length → step s = .next { s with pending := rest, response := some .refused })

/-! ## Encoding -/

/-- Words written out from 30_encoding.md R95 and the examples of the 4N files decode to the commands they stand for. -/
def Obligations.ExampleWordsDecode : Prop :=
  decode 0x01120000 = .command (.mov 1 2) ∧ decode 0x021003E8 = .command (.ldi 1 1000) ∧
  decode 0x10312000 = .command (.add 3 1 2) ∧ decode 0x13611000 = .command (.mulw 6 1 1) ∧
  decode 0x16312400 = .command (.divrem 3 4 1 2) ∧ decode 0x26210043 = .command (.shli 2 1 67) ∧
  decode 0x30041000 = .command (.cmp 4 1) ∧ decode 0x31050001 = .command (.cmpi 5 1) ∧
  decode 0x40100000 = .command (.parse 1) ∧ decode 0x50524100 = .command (.modpow 5 2 4 1) ∧
  decode 0x62721000 = .command (.urand 7 2 1) ∧ decode 0x70000000 = .command .clrst

/-- Decoding the word of a well-formed command gives that command, for every command and every operand. -/
def Obligations.DecodeOfEncode : Prop := ∀ i : Instr, i.wellFormed = true → decode (encode i) = .command i

/-- A word that decodes to a command is the word of that command, and the command is well formed: no two words spell the
same command. -/
def Obligations.EncodeOfDecode : Prop :=
  ∀ (w : CommandWord) (i : Instr), decode w = .command i → encode i = w ∧ i.wellFormed = true

/-- A word is a command exactly when it matches a row of the opcode table under its mask and, for DIVREM, names two different
destinations (30_encoding.md R98, R97). -/
def Obligations.CommandsAreTheTableRows : Prop :=
  ∀ w : CommandWord,
    (∃ i, decode w = .command i) ↔
      (∃ row ∈ opcodeRows, w &&& row.2.2 = row.2.1) ∧ ¬ (fieldOp w = 0x16 ∧ fieldRd w = fieldRc w)

/-- The opcode values 30_encoding.md R96 lists are exactly the unassigned ones, and each raises IllegalCommand whatever the
word's other fields. -/
def Obligations.UnlistedOpcodesAreIllegal : Prop :=
  (∀ w : CommandWord,
    (let op := (fieldOp w).toNat
     op = 0x00 ∨ 0x03 ≤ op ∧ op ≤ 0x0F ∨ 0x17 ≤ op ∧ op ≤ 0x1F ∨ 0x28 ≤ op ∧ op ≤ 0x2F ∨ 0x38 ≤ op ∧ op ≤ 0x3F ∨
       0x43 ≤ op ∧ op ≤ 0x4F ∨ 0x51 ≤ op ∧ op ≤ 0x5F ∨ 0x63 ≤ op ∧ op ≤ 0x6F ∨ 0x71 ≤ op ∧ op ≤ 0xFF) ↔
      decode w = .illegal .unassignedOpcode) ∧
  (∀ (w : CommandWord) (s : State), decode w = .illegal .unassignedOpcode →
    ∃ t, runCommand w s = .next t ∧ Raises .illegalCommand s t)

/-! ## Representation -/

/-- MOV and LDI (40_representation.md R120, R121): the register copied, the immediate zero-extended. -/
def Obligations.MovCopiesAndLdiLoadsTheUnsignedImmediate : Prop :=
  (DecodesAs 0x01 0x0000FFFF (fun w => .mov (fieldRd w) (fieldRa w)) ∧
    ∀ (s : State) (rd ra : Reg), ∃ t, exec (.mov rd ra) s = .next t ∧ t.r rd = s.r ra ∧ WritesOnly [rd] s t) ∧
  (DecodesAs 0x02 0x000F0000 (fun w => .ldi (fieldRd w) (fieldImm16 w)) ∧
    ∀ (s : State) (rd : Reg) (imm16 : BitVec 16),
      ∃ t, exec (.ldi rd imm16) s = .next t ∧ t.r rd = imm16.toNat ∧ WritesOnly [rd] s t)

/-! ## Arithmetic -/

/-- ADD and MUL (41_arith.md R131, R135). -/
def Obligations.AddAndMulWriteTruncatedResults : Prop :=
  (DecodesAs 0x10 0x00000FFF (fun w => .add (fieldRd w) (fieldRa w) (fieldRb w)) ∧
    ∀ (s : State) (rd ra rb : Reg), ∃ t, exec (.add rd ra rb) s = .next t ∧
      t.r rd = (s.r ra + s.r rb) % 2 ^ s.params.bits ∧ WritesOnly [rd] s t) ∧
  (DecodesAs 0x12 0x00000FFF (fun w => .mul (fieldRd w) (fieldRa w) (fieldRb w)) ∧
    ∀ (s : State) (rd ra rb : Reg), ∃ t, exec (.mul rd ra rb) s = .next t ∧
      t.r rd = (s.r ra * s.r rb) % 2 ^ s.params.bits ∧ WritesOnly [rd] s t)

/-- SUB (41_arith.md R133), as integers. -/
def Obligations.SubWritesTheDifferenceModulo : Prop :=
  DecodesAs 0x11 0x00000FFF (fun w => .sub (fieldRd w) (fieldRa w) (fieldRb w)) ∧
  ∀ (s : State) (rd ra rb : Reg),
    ∃ t, exec (.sub rd ra rb) s = .next t ∧
      (t.r rd : Int) = ((s.r ra : Int) - (s.r rb : Int)) % (2 ^ s.params.bits : Int) ∧ WritesOnly [rd] s t

/-- MULW (41_arith.md R136, 10_state.md R33): the exact product over the pair, low half to the even register, for every
choice of sources; a word with an odd destination raises IllegalCommand. That exec of a term with an odd destination, which
no word decodes to, raises it too is the model's choice (log 13). -/
def Obligations.MulwWritesTheExactProductToThePair : Prop :=
  (∀ w : CommandWord, fieldOp w = 0x13 →
    (w &&& 0x00100FFF = 0 → decode w = .command (.mulw (fieldRd w) (fieldRa w) (fieldRb w))) ∧
    (w &&& 0x00100FFF ≠ 0 → ∀ s, ∃ t, runCommand w s = .next t ∧ Raises .illegalCommand s t)) ∧
  ∀ (s : State) (rd ra rb : Reg),
    (rd.val % 2 = 0 → ∃ t, exec (.mulw rd ra rb) s = .next t ∧
      t.r rd = (s.r ra * s.r rb) % 2 ^ s.params.bits ∧ t.r (rd + 1) = (s.r ra * s.r rb) / 2 ^ s.params.bits ∧
      WritesOnly [rd, rd + 1] s t) ∧
    (rd.val % 2 = 1 → ∃ t, exec (.mulw rd ra rb) s = .next t ∧ Raises .illegalCommand s t)

/-- DIV and REM (41_arith.md R138, R139). -/
def Obligations.DivAndRemWriteTheirResultOrRaise : Prop :=
  (DecodesAs 0x14 0x00000FFF (fun w => .div (fieldRd w) (fieldRa w) (fieldRb w)) ∧
    ∀ (s : State) (rd ra rb : Reg),
      (s.r rb ≠ 0 → ∃ t, exec (.div rd ra rb) s = .next t ∧ t.r rd = s.r ra / s.r rb ∧ WritesOnly [rd] s t) ∧
      (s.r rb = 0 → ∃ t, exec (.div rd ra rb) s = .next t ∧ Raises .divisionByZero s t)) ∧
  (DecodesAs 0x15 0x00000FFF (fun w => .rem (fieldRd w) (fieldRa w) (fieldRb w)) ∧
    ∀ (s : State) (rd ra rb : Reg),
      (s.r rb ≠ 0 → ∃ t, exec (.rem rd ra rb) s = .next t ∧ t.r rd = s.r ra % s.r rb ∧ WritesOnly [rd] s t) ∧
      (s.r rb = 0 → ∃ t, exec (.rem rd ra rb) s = .next t ∧ Raises .divisionByZero s t))

/-- DIVREM (41_arith.md R140): both results are of the old values; a word with equal destinations raises IllegalCommand. That
exec of a term with equal destinations, which no word decodes to, raises it too is the model's choice (log 13). -/
def Obligations.DivremWritesQuotientAndRemainder : Prop :=
  (∀ w : CommandWord, fieldOp w = 0x16 →
    (w &&& 0x000000FF = 0 ∧ fieldRd w ≠ fieldRc w →
      decode w = .command (.divrem (fieldRd w) (fieldRc w) (fieldRa w) (fieldRb w))) ∧
    (w &&& 0x000000FF ≠ 0 ∨ fieldRd w = fieldRc w →
      ∀ s, ∃ t, runCommand w s = .next t ∧ Raises .illegalCommand s t)) ∧
  ∀ (s : State) (rd rc ra rb : Reg),
    (rd ≠ rc ∧ s.r rb ≠ 0 → ∃ t, exec (.divrem rd rc ra rb) s = .next t ∧ t.r rd = s.r ra / s.r rb ∧
      t.r rc = s.r ra % s.r rb ∧ WritesOnly [rd, rc] s t) ∧
    (rd ≠ rc ∧ s.r rb = 0 → ∃ t, exec (.divrem rd rc ra rb) s = .next t ∧ Raises .divisionByZero s t) ∧
    (rd = rc → ∃ t, exec (.divrem rd rc ra rb) s = .next t ∧ Raises .illegalCommand s t)

/-- The arithmetic laws of 41_arith.md R142, through the commands: ADD and MUL are associative, ADD is commutative, and
`(a div d)*d + (a mod d) = a` with `a mod d < d`, computed by DIV, REM, MUL and ADD; R142 carries the mark derived, from
R131, R135, R138 and R139. The last clause has DIVREM in place of DIV and REM, which R142 does not say: it is derived from
R140. A result register that would overwrite an operand still to be read is excluded by the hypotheses. -/
def Obligations.ArithmeticLawsHold : Prop :=
  (∀ (s : State) (rd x y z : Reg), rd ≠ x → rd ≠ z →
    ∃ t u t' u', exec (.add rd x y) s = .next t ∧ exec (.add rd rd z) t = .next u ∧ exec (.add rd y z) s = .next t' ∧
      exec (.add rd x rd) t' = .next u' ∧ u.r rd = u'.r rd) ∧
  (∀ (s : State) (rd x y z : Reg), rd ≠ x → rd ≠ z →
    ∃ t u t' u', exec (.mul rd x y) s = .next t ∧ exec (.mul rd rd z) t = .next u ∧ exec (.mul rd y z) s = .next t' ∧
      exec (.mul rd x rd) t' = .next u' ∧ u.r rd = u'.r rd) ∧
  (∀ (s : State) (rd x y : Reg),
    ∃ t t', exec (.add rd x y) s = .next t ∧ exec (.add rd y x) s = .next t' ∧ t.r rd = t'.r rd) ∧
  (∀ (s : State) (q m a d : Reg), q ≠ m → q ≠ a → q ≠ d → m ≠ d → s.r d ≠ 0 →
    ∃ t u v w, exec (.div q a d) s = .next t ∧ exec (.rem m a d) t = .next u ∧ u.r m < s.r d ∧
      exec (.mul q q d) u = .next v ∧ exec (.add q q m) v = .next w ∧ w.r q = s.r a) ∧
  (∀ (s : State) (q m a d : Reg), q ≠ m → q ≠ d → m ≠ d → s.r d ≠ 0 →
    ∃ t u v, exec (.divrem q m a d) s = .next t ∧ t.r m < s.r d ∧ exec (.mul q q d) t = .next u ∧
      exec (.add q q m) u = .next v ∧ v.r q = s.r a)

/-! ## Bitwise operators and shifts -/

/-- AND, OR and XOR act on every bit `i` in `0..BITS−1` (42_bitwise_shift.md R160, R161, R162). -/
def Obligations.BitwiseCommandsActOnEveryBit : Prop :=
  (DecodesAs 0x20 0x00000FFF (fun w => .and (fieldRd w) (fieldRa w) (fieldRb w)) ∧
    ∀ (s : State) (rd ra rb : Reg), ∃ t, exec (.and rd ra rb) s = .next t ∧ WritesOnly [rd] s t ∧
      ∀ i, i < s.params.bits → (t.r rd).testBit i = ((s.r ra).testBit i && (s.r rb).testBit i)) ∧
  (DecodesAs 0x21 0x00000FFF (fun w => .or (fieldRd w) (fieldRa w) (fieldRb w)) ∧
    ∀ (s : State) (rd ra rb : Reg), ∃ t, exec (.or rd ra rb) s = .next t ∧ WritesOnly [rd] s t ∧
      ∀ i, i < s.params.bits → (t.r rd).testBit i = ((s.r ra).testBit i || (s.r rb).testBit i)) ∧
  (DecodesAs 0x22 0x00000FFF (fun w => .xor (fieldRd w) (fieldRa w) (fieldRb w)) ∧
    ∀ (s : State) (rd ra rb : Reg), ∃ t, exec (.xor rd ra rb) s = .next t ∧ WritesOnly [rd] s t ∧
      ∀ i, i < s.params.bits → (t.r rd).testBit i = ((s.r ra).testBit i ^^ (s.r rb).testBit i))

/-- NOT: `MAX − r[ra]`, that is, every one of the BITS bits inverted (42_bitwise_shift.md R163). -/
def Obligations.NotInvertsEveryBit : Prop :=
  DecodesAs 0x23 0x0000FFFF (fun w => .not (fieldRd w) (fieldRa w)) ∧
  ∀ (s : State) (rd ra : Reg), ∃ t, exec (.not rd ra) s = .next t ∧
    t.r rd = 2 ^ s.params.bits - 1 - s.r ra ∧
    (∀ i, i < s.params.bits → (t.r rd).testBit i = !(s.r ra).testBit i) ∧ WritesOnly [rd] s t

/-- SHL and SHLI: `trunc_BITS(x * 2^s)` for every count, so 0 for a count of BITS or more; SHL reads the full value of `rb`
(42_bitwise_shift.md R165, R167). -/
def Obligations.LeftShiftsTruncateTheScaledValue : Prop :=
  (DecodesAs 0x24 0x00000FFF (fun w => .shl (fieldRd w) (fieldRa w) (fieldRb w)) ∧
    ∀ (s : State) (rd ra rb : Reg), ∃ t, exec (.shl rd ra rb) s = .next t ∧
      t.r rd = (s.r ra * 2 ^ s.r rb) % 2 ^ s.params.bits ∧ WritesOnly [rd] s t) ∧
  (DecodesAs 0x26 0x00000000 (fun w => .shli (fieldRd w) (fieldRa w) (fieldImm16 w)) ∧
    ∀ (s : State) (rd ra : Reg) (imm16 : BitVec 16), ∃ t, exec (.shli rd ra imm16) s = .next t ∧
      t.r rd = (s.r ra * 2 ^ imm16.toNat) % 2 ^ s.params.bits ∧ WritesOnly [rd] s t)

/-- SHR and SHRI: `x div 2^s` for every count, logical (42_bitwise_shift.md R166, R168). -/
def Obligations.RightShiftsDivideByThePower : Prop :=
  (DecodesAs 0x25 0x00000FFF (fun w => .shr (fieldRd w) (fieldRa w) (fieldRb w)) ∧
    ∀ (s : State) (rd ra rb : Reg), ∃ t, exec (.shr rd ra rb) s = .next t ∧
      t.r rd = s.r ra / 2 ^ s.r rb ∧ WritesOnly [rd] s t) ∧
  (DecodesAs 0x27 0x00000000 (fun w => .shri (fieldRd w) (fieldRa w) (fieldImm16 w)) ∧
    ∀ (s : State) (rd ra : Reg) (imm16 : BitVec 16), ∃ t, exec (.shri rd ra imm16) s = .next t ∧
      t.r rd = s.r ra / 2 ^ imm16.toNat ∧ WritesOnly [rd] s t)

/-- The shift laws of 42_bitwise_shift.md R169 for every count, through SHL and SHR: 0 for a count of BITS or more, the
identity for the count 0, and a right shift undone by a left one clears the low `s` bits. The last law is the spec's own
inference ("The second law is derived, not stated by the source"). -/
def Obligations.ShiftLawsHold : Prop :=
  ∀ (s : State) (rd ra rb : Reg),
    ∃ t u, exec (.shl rd ra rb) s = .next t ∧ exec (.shr rd ra rb) s = .next u ∧
      (s.params.bits ≤ s.r rb → t.r rd = 0 ∧ u.r rd = 0) ∧
      (s.r rb = 0 → t.r rd = s.r ra ∧ u.r rd = s.r ra) ∧
      (s.r rb < s.params.bits → rd ≠ rb → ∃ v, exec (.shl rd rd rb) u = .next v ∧
        v.r rd = s.r ra &&& (2 ^ s.params.bits - 1 - (2 ^ s.r rb - 1)))

/-! ## Comparators -/

/-- CMP and CMPI write `STATUS.CMP` (00 equal, 01 less, 10 greater) and `LAST <- 0`, and nothing else
(43_compare.md R180, R181). -/
def Obligations.ComparesWriteTheCmpField : Prop :=
  (DecodesAs 0x30 0x00F00FFF (fun w => .cmp (fieldRa w) (fieldRb w)) ∧
    ∀ (s : State) (ra rb : Reg), ∃ t, exec (.cmp ra rb) s = .next t ∧
      t = { s with status := { s.status with cmp := t.status.cmp, last := none } } ∧
      t.status.word.extractLsb' 4 2 =
        (if s.r ra = s.r rb then 0b00#2 else if s.r ra < s.r rb then 0b01#2 else 0b10#2)) ∧
  (DecodesAs 0x31 0x00F00000 (fun w => .cmpi (fieldRa w) (fieldImm16 w)) ∧
    ∀ (s : State) (ra : Reg) (imm16 : BitVec 16), ∃ t, exec (.cmpi ra imm16) s = .next t ∧
      t = { s with status := { s.status with cmp := t.status.cmp, last := none } } ∧
      t.status.word.extractLsb' 4 2 =
        (if s.r ra = imm16.toNat then 0b00#2 else if s.r ra < imm16.toNat then 0b01#2 else 0b10#2))

/-- The set-compare commands write the wide value 1 or 0; CMP is not written (43_compare.md R189, R182 to R187). -/
def Obligations.SetComparesWriteOneOrZero : Prop :=
  (DecodesAs 0x32 0x00000FFF (fun w => .seq (fieldRd w) (fieldRa w) (fieldRb w)) ∧
    ∀ (s : State) (rd ra rb : Reg), ∃ t, exec (.seq rd ra rb) s = .next t ∧
      t.r rd = (if s.r ra = s.r rb then 1 else 0) ∧ WritesOnly [rd] s t) ∧
  (DecodesAs 0x33 0x00000FFF (fun w => .sne (fieldRd w) (fieldRa w) (fieldRb w)) ∧
    ∀ (s : State) (rd ra rb : Reg), ∃ t, exec (.sne rd ra rb) s = .next t ∧
      t.r rd = (if s.r ra ≠ s.r rb then 1 else 0) ∧ WritesOnly [rd] s t) ∧
  (DecodesAs 0x34 0x00000FFF (fun w => .slt (fieldRd w) (fieldRa w) (fieldRb w)) ∧
    ∀ (s : State) (rd ra rb : Reg), ∃ t, exec (.slt rd ra rb) s = .next t ∧
      t.r rd = (if s.r ra < s.r rb then 1 else 0) ∧ WritesOnly [rd] s t) ∧
  (DecodesAs 0x35 0x00000FFF (fun w => .sle (fieldRd w) (fieldRa w) (fieldRb w)) ∧
    ∀ (s : State) (rd ra rb : Reg), ∃ t, exec (.sle rd ra rb) s = .next t ∧
      t.r rd = (if s.r ra ≤ s.r rb then 1 else 0) ∧ WritesOnly [rd] s t) ∧
  (DecodesAs 0x36 0x00000FFF (fun w => .sgt (fieldRd w) (fieldRa w) (fieldRb w)) ∧
    ∀ (s : State) (rd ra rb : Reg), ∃ t, exec (.sgt rd ra rb) s = .next t ∧
      t.r rd = (if s.r ra > s.r rb then 1 else 0) ∧ WritesOnly [rd] s t) ∧
  (DecodesAs 0x37 0x00000FFF (fun w => .sge (fieldRd w) (fieldRa w) (fieldRb w)) ∧
    ∀ (s : State) (rd ra rb : Reg), ∃ t, exec (.sge rd ra rb) s = .next t ∧
      t.r rd = (if s.r ra ≥ s.r rb then 1 else 0) ∧ WritesOnly [rd] s t)

/-! ## Literals -/

/-- PARSE (44_literal.md R201 with the syntax of R200): a text that spells a literal gives the digit sum modulo `2^BITS`,
every other text raises InvalidLiteral; TXT is not changed. -/
def Obligations.ParseReadsTheLiteral : Prop :=
  DecodesAs 0x40 0x000FFFFF (fun w => .parse (fieldRd w)) ∧
  ∀ (s : State) (rd : Reg),
    (∀ base vs, Spells s.txt base vs → ∃ t, exec (.parse rd) s = .next t ∧
      t.r rd = digitSum base vs % 2 ^ s.params.bits ∧ WritesOnly [rd] s t) ∧
    ((¬ ∃ base vs, Spells s.txt base vs) → ∃ t, exec (.parse rd) s = .next t ∧ Raises .invalidLiteral s t)

/-- FMTD writes the canonical decimal text, FMTH `0x` and the canonical upper-case hexadecimal digits
(44_literal.md R202, R203); the text fits TXT_CAP, and only TXT and LAST change. -/
def Obligations.FormatsWriteCanonicalText : Prop :=
  (DecodesAs 0x41 0x00F0FFFF (fun w => .fmtd (fieldRa w)) ∧
    ∀ (s : State) (ra : Reg), ∃ t, exec (.fmtd ra) s = .next t ∧ t.txt = canonicalDigits 10 (s.r ra) ∧
      t.txtLen = (canonicalDigits 10 (s.r ra)).length ∧ t.txtLen ≤ s.params.txtCap ∧ Keeps [] s t ∧ t.eng = s.eng ∧
      t.status = { s.status with last := none }) ∧
  (DecodesAs 0x42 0x00F0FFFF (fun w => .fmth (fieldRa w)) ∧
    ∀ (s : State) (ra : Reg), ∃ t, exec (.fmth ra) s = .next t ∧
      t.txt = 0x30#8 :: 0x78#8 :: canonicalDigits 16 (s.r ra) ∧
      t.txtLen = 2 + (canonicalDigits 16 (s.r ra)).length ∧ t.txtLen ≤ s.params.txtCap ∧ Keeps [] s t ∧ t.eng = s.eng ∧
      t.status = { s.status with last := none })

/-- Formatting and then parsing gives the value back without an error, in both bases, and formatting it again gives the same
text (44_literal.md R204, which the spec derives from R200, R201, R202 and R203). -/
def Obligations.ParseOfFormatRoundTrip : Prop :=
  (∀ (s : State) (ra rd : Reg), ∃ t u v, exec (.fmtd ra) s = .next t ∧ exec (.parse rd) t = .next u ∧
    u.status.last = none ∧ u.r rd = s.r ra ∧ exec (.fmtd rd) u = .next v ∧ v.txt = t.txt) ∧
  (∀ (s : State) (ra rd : Reg), ∃ t u v, exec (.fmth ra) s = .next t ∧ exec (.parse rd) t = .next u ∧
    u.status.last = none ∧ u.r rd = s.r ra ∧ exec (.fmth rd) u = .next v ∧ v.txt = t.txt)

/-- PARSE of any valid text and then FMTD or FMTH gives the canonical text of its value modulo `2^BITS`, and formatting that
text again after a second PARSE gives the same text (44_literal.md R205, which the spec derives from R204). -/
def Obligations.FormatAfterParseIsCanonical : Prop :=
  ∀ (s : State) (rd rd' : Reg) (base : Nat) (vs : List Nat), Spells s.txt base vs →
    ∃ a, exec (.parse rd) s = .next a ∧
      (∃ b c d, exec (.fmtd rd) a = .next b ∧ b.txt = canonicalDigits 10 (digitSum base vs % 2 ^ s.params.bits) ∧
        exec (.parse rd') b = .next c ∧ exec (.fmtd rd') c = .next d ∧ d.txt = b.txt) ∧
      (∃ b c d, exec (.fmth rd) a = .next b ∧
        b.txt = 0x30#8 :: 0x78#8 :: canonicalDigits 16 (digitSum base vs % 2 ^ s.params.bits) ∧
        exec (.parse rd') b = .next c ∧ exec (.fmth rd') c = .next d ∧ d.txt = b.txt)

/-! ## Modular exponentiation -/

/-- MODPOW writes the exact `b^e mod m` (45_modpow.md R220). -/
def Obligations.ModpowWritesTheExactPower : Prop :=
  DecodesAs 0x50 0x000000FF (fun w => .modpow (fieldRd w) (fieldRa w) (fieldRb w) (fieldRc w)) ∧
  ∀ (s : State) (rd ra rb rc : Reg),
    (s.r rc ≠ 0 → ∃ t, exec (.modpow rd ra rb rc) s = .next t ∧ t.r rd = s.r ra ^ s.r rb % s.r rc ∧
      WritesOnly [rd] s t) ∧
    (s.r rc = 0 → ∃ t, exec (.modpow rd ra rb rc) s = .next t ∧ Raises .divisionByZero s t)

/-- For `e ≥ 1` the sequencer performs exactly `bitlen(e)` squarings and `popcount(e)` multiplies (45_modpow.md R222, which the
spec derives from R221). -/
def Obligations.SequencerOperationCounts : Prop :=
  ∀ e : Nat, 1 ≤ e →
    (powOps e (bitlen e)).count .square = bitlen e ∧
      (powOps e (bitlen e)).count .multiply = (Nat.digits 2 e).sum

/-! ## The random unit -/

/-- SEED sets the engine to `RNG_SEED` of the full register value, so seeding again with the same value restores the same
engine (46_random.md R230). -/
def Obligations.SeedSetsTheEngine : Prop :=
  DecodesAs 0x60 0x00F0FFFF (fun w => .seed (fieldRa w)) ∧
  ∀ (s : State) (ra : Reg), ∃ t, exec (.seed ra) s = .next t ∧
    t.eng = rngSeed s.params.bits (BitVec.ofNat s.params.bits (s.r ra)) ∧ Keeps [] s t ∧ t.txt = s.txt ∧
    t.status = { s.status with last := none }

/-- RAND consumes exactly NLIMB raw draws and writes `Σ_j o_j * 2^(j*LIMB_W)`; it is the same as URAND with `low = 0` and
`high = MAX` (46_random.md R235). -/
def Obligations.RandAssemblesNlimbDraws : Prop :=
  DecodesAs 0x61 0x000FFFFF (fun w => .rand (fieldRd w)) ∧
  (∀ (s : State) (rd : Reg), ∃ t, exec (.rand rd) s = .next t ∧
    t.r rd = ∑ j ∈ Finset.range s.params.nlimb, rawOutput s.params s.eng j * 2 ^ (j * s.params.limbW.bits) ∧
    t.eng = engineAfter s.params s.params.nlimb s.eng ∧ Keeps [rd] s t ∧ t.txt = s.txt ∧
    t.status = { s.status with last := none }) ∧
  ∀ (s : State) (rd ra rb : Reg), s.r ra = 0 → s.r rb = 2 ^ s.params.bits - 1 →
    exec (.rand rd) s = exec (.urand rd ra rb) s

/-- URAND (46_random.md R236 with R231, R232 and the loop of R234): with `M`, `nb` and `k` as the rules give them, the first candidate below
`M` is accepted, `low` plus it is written, and exactly the draws of the candidates up to it are consumed; `low > high`
raises InvalidRange with no draw. -/
def Obligations.UrandWritesTheFirstAcceptedCandidate : Prop :=
  DecodesAs 0x62 0x00000FFF (fun w => .urand (fieldRd w) (fieldRa w) (fieldRb w)) ∧
  ∀ (s : State) (rd ra rb : Reg) (nb k : Nat),
    (s.r rb < s.r ra → ∃ t, exec (.urand rd ra rb) s = .next t ∧ Raises .invalidRange s t) ∧
    (s.r ra ≤ s.r rb → nb = Nat.size (s.r rb - s.r ra) → k = (nb + s.params.limbW.bits - 1) / s.params.limbW.bits →
      ∀ n, candidateAt s.params k nb s.eng n < s.r rb - s.r ra + 1 →
        (∀ i, i < n → s.r rb - s.r ra + 1 ≤ candidateAt s.params k nb s.eng i) →
          ∃ t, exec (.urand rd ra rb) s = .next t ∧ t.r rd = s.r ra + candidateAt s.params k nb s.eng n ∧
            t.eng = engineAfter s.params ((n + 1) * k) s.eng ∧ Keeps [rd] s t ∧ t.txt = s.txt ∧
            t.status = { s.status with last := none })

/-- URAND never returns exactly where the range is not empty and no candidate of the engine is ever accepted; no value is
invented for it (70_reset_and_hazards.md R297). That this is the fault `samplingNeverAccepts`, and that the model's bound on
the number of candidates loses none, is log 3. -/
def Obligations.UrandHangsExactlyWhenNothingIsAccepted : Prop :=
  ∀ (s : State) (rd ra rb : Reg) (nb k : Nat),
    nb = Nat.size (s.r rb - s.r ra) → k = (nb + s.params.limbW.bits - 1) / s.params.limbW.bits →
      (exec (.urand rd ra rb) s = .fault .samplingNeverAccepts ↔
        s.r ra ≤ s.r rb ∧ ∀ n, s.r rb - s.r ra + 1 ≤ candidateAt s.params k nb s.eng n)

/-- "A range of size `2^t` never rejects" (46_random.md R236): on such a range URAND answers a next state, whatever the
engine, and its value lies in the range. -/
def Obligations.UrandCompletesOnPowerOfTwoRanges : Prop :=
  ∀ (s : State) (rd ra rb : Reg) (e : Nat), s.r ra ≤ s.r rb → s.r rb - s.r ra + 1 = 2 ^ e →
    ∃ t, exec (.urand rd ra rb) s = .next t ∧ s.r ra ≤ t.r rd ∧ t.r rd ≤ s.r rb ∧ t.status.last = none

/-- The value and the engine after a URAND are a function of the engine before it and the range, those after a RAND of the
engine before it, and of nothing else (46_random.md R237). -/
def Obligations.DrawsDependOnEngineAndRangeOnly : Prop :=
  (∀ (s s' t t' : State) (rd rd' ra rb ra' rb' : Reg),
    s.params = s'.params → s.eng = s'.eng → s.r ra = s'.r ra' → s.r rb = s'.r rb' →
      exec (.urand rd ra rb) s = .next t → exec (.urand rd' ra' rb') s' = .next t' → t.status.last = none →
        t.r rd = t'.r rd' ∧ t.eng = t'.eng ∧ t'.status.last = none) ∧
  (∀ (s s' t t' : State) (rd rd' : Reg),
    s.params = s'.params → s.eng = s'.eng →
      exec (.rand rd) s = .next t → exec (.rand rd') s' = .next t' → t.r rd = t'.r rd' ∧ t.eng = t'.eng)

/-! ## STATUS -/

/-- CLRST clears the sticky bits and LAST; CMP, registers, TXT and ENG stay; no other command clears a sticky bit
(47_status.md R250). The last clause ranges over
the terms no word decodes to as well (MULW with an odd rd, DIVREM with equal destinations), whose next state is the model's
choice (log 13). -/
def Obligations.ClrstAloneClearsTheStickyBits : Prop :=
  DecodesAs 0x70 0x00FFFFFF (fun _ => .clrst) ∧
  (∀ s : State, exec .clrst s = .next { s with status :=
    { dz := false, il := false, ic := false, ir := false, cmp := s.status.cmp, last := none } }) ∧
  ∀ (i : Instr) (s t : State), i ≠ .clrst → exec i s = .next t →
    (s.status.dz = true → t.status.dz = true) ∧ (s.status.il = true → t.status.il = true) ∧
      (s.status.ic = true → t.status.ic = true) ∧ (s.status.ir = true → t.status.ir = true)

/-- The layout of STATUS: the sticky bits, CMP never `11`, LAST never 5 to 7, reserved bits 0 (10_state.md R38). -/
def Obligations.StatusWordLayout : Prop :=
  ∀ st : Status,
    st.word.extractLsb' 0 1 = BitVec.ofBool st.dz ∧ st.word.extractLsb' 1 1 = BitVec.ofBool st.il ∧
      st.word.extractLsb' 2 1 = BitVec.ofBool st.ic ∧ st.word.extractLsb' 3 1 = BitVec.ofBool st.ir ∧
      st.word.extractLsb' 4 2 = (match st.cmp with | .eq => 0b00#2 | .lt => 0b01#2 | .gt => 0b10#2) ∧
      st.word.extractLsb' 6 2 = 0 ∧
      st.word.extractLsb' 8 3 = (match st.last with
        | none => 0#3 | some .divisionByZero => 1#3 | some .invalidLiteral => 2#3 | some .illegalCommand => 3#3
        | some .invalidRange => 4#3) ∧
      st.word.extractLsb' 11 21 = 0

/-! ## Rules of the whole machine -/

/-- The error protocol, for every error of every word: the state after a failed H_CMD differs from the state before it only in
STATUS (and the host's side), where the sticky bit of the error is set and LAST holds its code, and the response is that
code (60_exceptions.md R262). -/
def Obligations.FailedCommandsChangeOnlyStatus : Prop :=
  ∀ (s t : State) (w : CommandWord) (rest : List Request) (e : ErrorKind),
    s.pending = ⟨.host, .hCmd w⟩ :: rest → step s = .next t → t.status.last = some e →
      Raises e { s with pending := rest } { t with response := s.response } ∧
        t.response = some (.code (match e with
          | .divisionByZero => 1 | .invalidLiteral => 2 | .illegalCommand => 3 | .invalidRange => 4))

/-- Each error is raised exactly on its cause (60_exceptions.md R261, R263, R265), and a well-formed command raises no
other. -/
def Obligations.ErrorsHaveTheirListedCauses : Prop :=
  ∀ (i : Instr) (s t : State), i.wellFormed = true → exec i s = .next t →
    (t.status.last = some .divisionByZero ↔
      (∃ rd ra rb, (i = .div rd ra rb ∨ i = .rem rd ra rb) ∧ s.r rb = 0) ∨
        (∃ rd rc ra rb, i = .divrem rd rc ra rb ∧ s.r rb = 0) ∨
        (∃ rd ra rb rc, i = .modpow rd ra rb rc ∧ s.r rc = 0)) ∧
    (t.status.last = some .invalidLiteral ↔ (∃ rd, i = .parse rd) ∧ ¬ ∃ base vs, Spells s.txt base vs) ∧
    (t.status.last = some .invalidRange ↔ ∃ rd ra rb, i = .urand rd ra rb ∧ s.r rb < s.r ra) ∧
    t.status.last ≠ some .illegalCommand

/-- A command other than CLRST that completes without error changes no sticky bit, one that raises an error sets that error's
and no other, and `STATUS.CMP` keeps its value across every command but a CMP or CMPI (10_state.md R39, R40). It ranges over
the terms no word decodes to as well (MULW with an odd rd, DIVREM with equal destinations), whose next state is the model's
choice (log 13). -/
def Obligations.StickyBitsAndCmpPersist : Prop :=
  ∀ (i : Instr) (s t : State), exec i s = .next t →
    (i ≠ .clrst →
      t.status.dz = (s.status.dz || t.status.last == some .divisionByZero) ∧
      t.status.il = (s.status.il || t.status.last == some .invalidLiteral) ∧
      t.status.ic = (s.status.ic || t.status.last == some .illegalCommand) ∧
      t.status.ir = (s.status.ir || t.status.last == some .invalidRange)) ∧
    ((∀ ra rb, i ≠ .cmp ra rb) → (∀ ra imm, i ≠ .cmpi ra imm) → t.status.cmp = s.status.cmp)

/-- Among the commands, only SEED, RAND and URAND change ENG and only FMTD and FMTH change TXT, and no command changes the
instance or the host's side (10_state.md R45, R43; 46_random.md R237). It ranges over
the terms no word decodes to as well (MULW with an odd rd, DIVREM with equal destinations), whose next state is the model's
choice (log 13). -/
def Obligations.EngineAndTextHaveTheirWriters : Prop :=
  ∀ (i : Instr) (s t : State), exec i s = .next t →
    t.params = s.params ∧ t.pending = s.pending ∧ t.response = s.response ∧
    ((∀ ra, i ≠ .seed ra) → (∀ rd, i ≠ .rand rd) → (∀ rd ra rb, i ≠ .urand rd ra rb) → t.eng = s.eng) ∧
    ((∀ ra, i ≠ .fmtd ra) → (∀ ra, i ≠ .fmth ra) → t.txt = s.txt)

/-- ENG is hidden: a command other than RAND and URAND gives the same registers, STATUS and TXT whatever the engine holds
(10_state.md R46). It ranges over
the terms no word decodes to as well (MULW with an odd rd, DIVREM with equal destinations), whose next state is the model's
choice (log 13). -/
def Obligations.EngineIsHiddenFromOtherCommands : Prop :=
  ∀ (i : Instr) (s t : State) (e : EngineState), exec i s = .next t →
    (∀ rd, i ≠ .rand rd) → (∀ rd ra rb, i ≠ .urand rd ra rb) →
      ∃ u, exec i { s with eng := e } = .next u ∧ (∀ j, u.r j = t.r j) ∧ u.status = t.status ∧ u.txt = t.txt

/-- Every result of the units A to F is a function of the operand values alone and does not depend on LIMB_W: two instances
of one width that hold the same registers, STATUS and TXT give the same ones (00_scope.md R11). It ranges over
the terms no word decodes to as well (MULW with an odd rd, DIVREM with equal destinations), whose next state is the model's
choice (log 13). -/
def Obligations.ResultsDoNotDependOnTheLimbWidth : Prop :=
  ∀ (i : Instr) (s s' t t' : State), s.params.bits = s'.params.bits → (∀ j, s.r j = s'.r j) → s.status = s'.status →
    s.txt = s'.txt → (∀ rd, i ≠ .rand rd) → (∀ rd ra rb, i ≠ .urand rd ra rb) →
      exec i s = .next t → exec i s' = .next t' →
        (∀ j, t.r j = t'.r j) ∧ t.status = t'.status ∧ t.txt = t'.txt

/-- Every command other than URAND completes, from every state and on every operand: with its effect, or with the error it
raises (70_reset_and_hazards.md R297, 60_exceptions.md R262). The rules speak of the commands a word decodes to; that the terms
no word decodes to (MULW with an odd rd, DIVREM with equal destinations) answer a next state too is the model's choice
(log 13). -/
def Obligations.OnlyUrandMayNotComplete : Prop :=
  ∀ (i : Instr) (s : State), (∀ rd ra rb, i ≠ .urand rd ra rb) → ∃ t, exec i s = .next t

/-- A block whose one host issues transactions with payloads their types admit, and no URAND word, runs for ever: nothing in
it ends a run (60_exceptions.md R262, 70_reset_and_hazards.md R297). Once the list of issued transactions is empty the steps
are the idle steps of log 5. -/
def Obligations.RunsWithoutUrandNeverStop : Prop :=
  ∀ (s : State) (k : Nat),
    (∀ req ∈ s.pending, req.issuer = .host ∧
      (∀ w, req.tx = .hCmd w → fieldOp w ≠ 0x62) ∧
      (∀ i v, req.tx = .hWreg i v → v < 2 ^ s.params.bits) ∧
      (∀ i j x, req.tx = .hWlimb i j x → x < 2 ^ s.params.limbW.bits)) → RunsFor k s

/-- `TXTLEN ≤ TXT_CAP` is kept by every step from every state where it holds; FMTD and FMTH rest on "The text always fits"
(10_state.md R43, 44_literal.md R202, R203). -/
def Obligations.TextFitsIsKeptByEveryStep : Prop :=
  ∀ s t : State, TextFits s → step s = .next t → TextFits t ∧ t.params = s.params

/-- `TXTLEN ≤ TXT_CAP` holds after reset, on every instance. -/
def Obligations.TextFitsAfterReset : Prop := ∀ p : Params, TextFits (State.resetFor p)

/-! ## The limb-level engines -/

/-- The carry chain computes `trunc_BITS(x + y)` (41_arith.md R130, which derives that value from the chain). -/
def Obligations.CarryChainComputesTheSum : Prop :=
  ∀ w n x y : Nat, x < 2 ^ (n * w) → y < 2 ^ (n * w) → adder w n x y = (x + y) % 2 ^ (n * w)

/-- The borrow chain computes `(x − y) mod 2^BITS` (41_arith.md R132, which derives that value from the chain). -/
def Obligations.BorrowChainComputesTheDifference : Prop :=
  ∀ w n x y : Nat, x < 2 ^ (n * w) → y < 2 ^ (n * w) →
    (subtractor w n x y : Int) = ((x : Int) - (y : Int)) % (2 ^ (n * w) : Int)

/-- The schoolbook multiplier computes the exact product, and the form that skips the high partial products its low half
(41_arith.md R134, which derives both from 00_scope.md R12). -/
def Obligations.MultiplierComputesTheProduct : Prop :=
  ∀ w n x y : Nat, x < 2 ^ (n * w) → y < 2 ^ (n * w) →
    multiplier w n x y = x * y ∧ multiplierLow w n x y = x * y % 2 ^ (n * w)

/-- The shift-compare-subtract divider computes quotient and remainder (41_arith.md R137). -/
def Obligations.DividerComputesQuotientAndRemainder : Prop :=
  ∀ bits x d : Nat, x < 2 ^ bits → d ≠ 0 → divider bits x d = (x / d, x % d)

/-- The barrel shifter computes the values of 42_bitwise_shift.md R164, which derives them from 00_scope.md R12. -/
def Obligations.BarrelShifterComputesTheShifts : Prop :=
  ∀ w n x s : Nat, 0 < w → x < 2 ^ (n * w) →
    barrelLeft w n x s = x * 2 ^ s % 2 ^ (n * w) ∧ barrelRight w n x s = x / 2 ^ s

/-- The limb comparison is the integer comparison (43_compare.md R188, which derives this from 00_scope.md R12). -/
def Obligations.LimbComparisonIsTheIntegerOrder : Prop :=
  ∀ w n x y : Nat, x < 2 ^ (n * w) → y < 2 ^ (n * w) → limbOrder w x y n = order x y

/-! ## Pseudo-instructions -/

/-- The pseudo-instructions give the results of 30_encoding.md R102, for every scratch register that differs from the
destination; LI loads any value of the instance's width. The spec derives the results from the rules of the commands. -/
def Obligations.PseudoInstructionsGiveTheirResults : Prop :=
  ∀ (s : State) (rd ra rt : Reg) (v : Nat),
    (∃ t, execAll (Pseudo.expand (.clr rd)) s = .next t ∧ t.r rd = 0) ∧
    (∃ t, execAll (Pseudo.expand (.setmax rd)) s = .next t ∧ t.r rd = 2 ^ s.params.bits - 1) ∧
    (rt ≠ rd → ∃ t, execAll (Pseudo.expand (.inc rd rt)) s = .next t ∧ t.r rd = (s.r rd + 1) % 2 ^ s.params.bits) ∧
    (rt ≠ rd → ∃ t, execAll (Pseudo.expand (.dec rd rt)) s = .next t ∧
      (t.r rd : Int) = ((s.r rd : Int) - 1) % (2 ^ s.params.bits : Int)) ∧
    (rt ≠ rd → ∃ t, execAll (Pseudo.expand (.neg rd ra rt)) s = .next t ∧
      t.r rd = (2 ^ s.params.bits - s.r ra) % 2 ^ s.params.bits) ∧
    (rt ≠ rd → v < 2 ^ s.params.bits → ∃ t, execAll (Pseudo.expand (.li rd rt v)) s = .next t ∧ t.r rd = v)
end

