-- ==== Sys2Proof/Laws/State.lean ====
section
/-! SUPPORT. One lemma per field per update of the state, each true by rfl. -/

namespace Sys2Proof.Machine

/-! ### State.writeReg -/

@[simp] theorem State.writeReg_params (s : State) (i : Reg) (v : Nat) : (s.writeReg i v).params = s.params := rfl

@[simp] theorem State.writeReg_status (s : State) (i : Reg) (v : Nat) : (s.writeReg i v).status = s.status := rfl

@[simp] theorem State.writeReg_txt (s : State) (i : Reg) (v : Nat) : (s.writeReg i v).txt = s.txt := rfl

@[simp] theorem State.writeReg_eng (s : State) (i : Reg) (v : Nat) : (s.writeReg i v).eng = s.eng := rfl

@[simp] theorem State.writeReg_pending (s : State) (i : Reg) (v : Nat) : (s.writeReg i v).pending = s.pending := rfl

@[simp] theorem State.writeReg_response (s : State) (i : Reg) (v : Nat) : (s.writeReg i v).response = s.response := rfl

/-! ### State.writePair -/

@[simp] theorem State.writePair_params (s : State) (i : Reg) (v : Nat) : (s.writePair i v).params = s.params := rfl

@[simp] theorem State.writePair_status (s : State) (i : Reg) (v : Nat) : (s.writePair i v).status = s.status := rfl

@[simp] theorem State.writePair_txt (s : State) (i : Reg) (v : Nat) : (s.writePair i v).txt = s.txt := rfl

@[simp] theorem State.writePair_eng (s : State) (i : Reg) (v : Nat) : (s.writePair i v).eng = s.eng := rfl

@[simp] theorem State.writePair_pending (s : State) (i : Reg) (v : Nat) : (s.writePair i v).pending = s.pending := rfl

@[simp] theorem State.writePair_response (s : State) (i : Reg) (v : Nat) : (s.writePair i v).response = s.response := rfl

/-! ### State.setTxt -/

@[simp] theorem State.setTxt_params (s : State) (x : List Byte) : (s.setTxt x).params = s.params := rfl

@[simp] theorem State.setTxt_status (s : State) (x : List Byte) : (s.setTxt x).status = s.status := rfl

@[simp] theorem State.setTxt_txt (s : State) (x : List Byte) : (s.setTxt x).txt = x := rfl

@[simp] theorem State.setTxt_eng (s : State) (x : List Byte) : (s.setTxt x).eng = s.eng := rfl

@[simp] theorem State.setTxt_pending (s : State) (x : List Byte) : (s.setTxt x).pending = s.pending := rfl

@[simp] theorem State.setTxt_response (s : State) (x : List Byte) : (s.setTxt x).response = s.response := rfl

@[simp] theorem State.setTxt_r (s : State) (x : List Byte) (j : Reg) : (s.setTxt x).r j = s.r j := rfl

/-! ### State.setEng -/

@[simp] theorem State.setEng_params (s : State) (e : Config.EngineState) : (s.setEng e).params = s.params := rfl

@[simp] theorem State.setEng_status (s : State) (e : Config.EngineState) : (s.setEng e).status = s.status := rfl

@[simp] theorem State.setEng_txt (s : State) (e : Config.EngineState) : (s.setEng e).txt = s.txt := rfl

@[simp] theorem State.setEng_eng (s : State) (e : Config.EngineState) : (s.setEng e).eng = e := rfl

@[simp] theorem State.setEng_pending (s : State) (e : Config.EngineState) : (s.setEng e).pending = s.pending := rfl

@[simp] theorem State.setEng_response (s : State) (e : Config.EngineState) : (s.setEng e).response = s.response := rfl

@[simp] theorem State.setEng_r (s : State) (e : Config.EngineState) (j : Reg) : (s.setEng e).r j = s.r j := rfl

/-! ### State.succeed -/

@[simp] theorem State.succeed_params (s : State) : (s.succeed).params = s.params := rfl

@[simp] theorem State.succeed_status (s : State) : (s.succeed).status = s.status.succeeded := rfl

@[simp] theorem State.succeed_txt (s : State) : (s.succeed).txt = s.txt := rfl

@[simp] theorem State.succeed_eng (s : State) : (s.succeed).eng = s.eng := rfl

@[simp] theorem State.succeed_pending (s : State) : (s.succeed).pending = s.pending := rfl

@[simp] theorem State.succeed_response (s : State) : (s.succeed).response = s.response := rfl

@[simp] theorem State.succeed_r (s : State) (j : Reg) : (s.succeed).r j = s.r j := rfl

/-! ### State.raise -/

@[simp] theorem State.raise_params (s : State) (e : ErrorKind) : (s.raise e).params = s.params := rfl

@[simp] theorem State.raise_status (s : State) (e : ErrorKind) : (s.raise e).status = s.status.failed e := rfl

@[simp] theorem State.raise_txt (s : State) (e : ErrorKind) : (s.raise e).txt = s.txt := rfl

@[simp] theorem State.raise_eng (s : State) (e : ErrorKind) : (s.raise e).eng = s.eng := rfl

@[simp] theorem State.raise_pending (s : State) (e : ErrorKind) : (s.raise e).pending = s.pending := rfl

@[simp] theorem State.raise_response (s : State) (e : ErrorKind) : (s.raise e).response = s.response := rfl

@[simp] theorem State.raise_r (s : State) (e : ErrorKind) (j : Reg) : (s.raise e).r j = s.r j := rfl

/-! ### State.respond -/

@[simp] theorem State.respond_params (s : State) (x : Response) : (s.respond x).params = s.params := rfl

@[simp] theorem State.respond_status (s : State) (x : Response) : (s.respond x).status = s.status := rfl

@[simp] theorem State.respond_txt (s : State) (x : Response) : (s.respond x).txt = s.txt := rfl

@[simp] theorem State.respond_eng (s : State) (x : Response) : (s.respond x).eng = s.eng := rfl

@[simp] theorem State.respond_pending (s : State) (x : Response) : (s.respond x).pending = s.pending := rfl

@[simp] theorem State.respond_response (s : State) (x : Response) : (s.respond x).response = some x := rfl

@[simp] theorem State.respond_r (s : State) (x : Response) (j : Reg) : (s.respond x).r j = s.r j := rfl

/-! ### Literal updates -/

@[simp] theorem State.r_status (s : State) (st : Status) (j : Reg) : State.r { s with status := st } j = s.r j := rfl

@[simp] theorem State.r_pending (s : State) (l : List Request) (j : Reg) : State.r { s with pending := l } j = s.r j := rfl

/-! ### Status -/

@[simp] theorem Status.succeeded_last (st : Status) : st.succeeded.last = none := rfl

@[simp] theorem Status.succeeded_cmp (st : Status) : st.succeeded.cmp = st.cmp := rfl

@[simp] theorem Status.succeeded_dz (st : Status) : st.succeeded.dz = st.dz := rfl

@[simp] theorem Status.succeeded_il (st : Status) : st.succeeded.il = st.il := rfl

@[simp] theorem Status.succeeded_ic (st : Status) : st.succeeded.ic = st.ic := rfl

@[simp] theorem Status.succeeded_ir (st : Status) : st.succeeded.ir = st.ir := rfl

@[simp] theorem Status.failed_last (e : ErrorKind) (st : Status) : (st.failed e).last = some e := rfl

@[simp] theorem Status.failed_cmp (e : ErrorKind) (st : Status) : (st.failed e).cmp = st.cmp := by cases e <;> rfl

@[simp] theorem Status.failed_dz (e : ErrorKind) (st : Status) :
    (st.failed e).dz = (st.dz || e == .divisionByZero) := by
  cases e <;> simp [Status.failed, Status.setSticky]

@[simp] theorem Status.failed_il (e : ErrorKind) (st : Status) :
    (st.failed e).il = (st.il || e == .invalidLiteral) := by
  cases e <;> simp [Status.failed, Status.setSticky]

@[simp] theorem Status.failed_ic (e : ErrorKind) (st : Status) :
    (st.failed e).ic = (st.ic || e == .illegalCommand) := by
  cases e <;> simp [Status.failed, Status.setSticky]

@[simp] theorem Status.failed_ir (e : ErrorKind) (st : Status) :
    (st.failed e).ir = (st.ir || e == .invalidRange) := by
  cases e <;> simp [Status.failed, Status.setSticky]

end Sys2Proof.Machine
end

