-- ==== Sys2Proof/Laws/Ops.lean ====
section
/-! SUPPORT. What each shared operation over the state does, said once. -/

namespace Sys2Proof.Machine

open Sys2Proof.Safety

/-! ## Registers -/

/-- A register holds a value in `[0, 2^BITS − 1]` (00_scope.md R12). -/
theorem State.r_lt (s : State) (i : Reg) : s.r i < 2 ^ s.params.bits := (s.regs[i]).isLt

@[simp] theorem State.r_writeReg_same (s : State) (i : Reg) (v : Nat) :
    (s.writeReg i v).r i = v % 2 ^ s.params.bits := by
  change ((s.regs.set i.val (BitVec.ofNat s.params.bits v) i.isLt)[i.val]).toNat = _
  rw [Vector.getElem_set_self, BitVec.toNat_ofNat]

theorem State.r_writeReg_of_ne (s : State) (i j : Reg) (v : Nat) (h : j ≠ i) : (s.writeReg i v).r j = s.r j := by
  have : (i : Nat) ≠ j := fun e => h (Fin.ext e.symm)
  change ((s.regs.set i.val (BitVec.ofNat s.params.bits v) i.isLt)[j.val]).toNat = (s.regs[j.val]).toNat
  rw [Vector.getElem_set_ne _ _ this]

theorem State.r_writeReg (s : State) (i j : Reg) (v : Nat) :
    (s.writeReg i v).r j = if j = i then v % 2 ^ s.params.bits else s.r j := by
  split
  · next h => rw [h, State.r_writeReg_same]
  · next h => exact State.r_writeReg_of_ne s i j v h

/-- Every register of every instance reads 0 after reset (10_state.md R48). -/
@[simp] theorem State.resetFor_r (p : Config.Params) (i : Reg) : (State.resetFor p).r i = 0 := by
  change ((Vector.replicate 16 0#p.bits)[i.val]).toNat = 0
  rw [Vector.getElem_replicate]
  rfl

/-- An even register differs from its pair partner. -/
theorem Reg.partner_ne (rd : Reg) : rd + 1 ≠ rd := by
  intro h
  have := congrArg Fin.val h
  simp [Fin.val_add] at this
  omega

@[simp] theorem State.r_writePair_low (s : State) (rd : Reg) (v : Nat) :
    (s.writePair rd v).r rd = v % 2 ^ s.params.bits := by
  simp [State.writePair, State.r_writeReg, (Reg.partner_ne rd).symm]

@[simp] theorem State.r_writePair_high (s : State) (rd : Reg) (v : Nat) :
    (s.writePair rd v).r (rd + 1) = v / 2 ^ s.params.bits % 2 ^ s.params.bits := by
  simp [State.writePair]

theorem State.r_writePair_of_ne (s : State) (rd j : Reg) (v : Nat) (h : j ≠ rd) (h' : j ≠ rd + 1) :
    (s.writePair rd v).r j = s.r j := by
  simp [State.writePair, State.r_writeReg, h, h']

/-! ## Ending a command -/

/-- Writing one register and completing is the whole effect of most commands. -/
theorem writeReg_writesOnly (s : State) (rd : Reg) (v : Nat) : WritesOnly [rd] s (s.writeReg rd v).succeed where
  params := rfl
  regs i h := by
    have : i ≠ rd := by simpa using h
    simpa using State.r_writeReg_of_ne s rd i v this
  pending := rfl
  response := rfl
  txt := rfl
  eng := rfl
  status := rfl

/-- The outcome of a register-writing command with a value that fits. -/
theorem done_writeReg (s : State) (rd : Reg) (v : Nat) (h : v < 2 ^ s.params.bits) :
    ∃ t, done (s.writeReg rd v) = .next t ∧ t.r rd = v ∧ WritesOnly [rd] s t :=
  ⟨_, rfl, by simp [Nat.mod_eq_of_lt h], writeReg_writesOnly s rd v⟩

theorem raise_raises (s : State) (e : ErrorKind) : Raises e s (s.raise e) where
  onlyStatus := rfl
  dz := Status.failed_dz e s.status
  il := Status.failed_il e s.status
  ic := Status.failed_ic e s.status
  ir := Status.failed_ir e s.status
  cmp := Status.failed_cmp e s.status
  last := rfl

/-- An error's outcome is a next state that differs only in STATUS (60_exceptions.md R262). -/
theorem fail_raises (s : State) (e : ErrorKind) : ∃ t, fail e s = .next t ∧ Raises e s t :=
  ⟨_, rfl, raise_raises s e⟩

end Sys2Proof.Machine
end

