-- ==== Sys2Proof/Laws/Decode.lean ====
section
/-! SUPPORT. The fields of an encoded word, the zero fields of each format, and the opcode map read both ways. -/

namespace Sys2Proof

/-! ## A word and its fields -/

/-- The six fields of a word of a register format are what it was packed from. -/
theorem extract_append (op : BitVec 8) (rd ra rb rc : BitVec 4) (z : BitVec 8) (w : BitVec 32)
    (h : w = op ++ rd ++ ra ++ rb ++ rc ++ z) :
    w.extractLsb' 24 8 = op ∧ w.extractLsb' 20 4 = rd ∧ w.extractLsb' 16 4 = ra ∧ w.extractLsb' 12 4 = rb ∧
      w.extractLsb' 8 4 = rc ∧ w.extractLsb' 0 8 = z := by
  subst h
  refine ⟨?_, ?_, ?_, ?_, ?_, ?_⟩ <;>
  · ext i hi
    simp only [BitVec.getElem_extractLsb', BitVec.getLsbD_append]
    interval_cases i <;> simp

/-- The same for a word of an immediate format. -/
theorem extract_append_imm (op : BitVec 8) (rd ra : BitVec 4) (imm : BitVec 16) (w : BitVec 32)
    (h : w = op ++ rd ++ ra ++ imm) :
    w.extractLsb' 24 8 = op ∧ w.extractLsb' 20 4 = rd ∧ w.extractLsb' 16 4 = ra ∧ w.extractLsb' 0 16 = imm := by
  subst h
  refine ⟨?_, ?_, ?_, ?_⟩ <;>
  · ext i hi
    simp only [BitVec.getElem_extractLsb', BitVec.getLsbD_append]
    interval_cases i <;> simp

/-- A word is the concatenation of its fields. -/
theorem append_fields (w : CommandWord) :
    w.extractLsb' 24 8 ++ w.extractLsb' 20 4 ++ w.extractLsb' 16 4 ++ w.extractLsb' 12 4 ++ w.extractLsb' 8 4 ++
      w.extractLsb' 0 8 = w := by
  ext i hi
  simp only [BitVec.getElem_append, BitVec.getElem_extractLsb']
  interval_cases i <;> simp

theorem append_fields_imm (w : CommandWord) :
    w.extractLsb' 24 8 ++ w.extractLsb' 20 4 ++ w.extractLsb' 16 4 ++ w.extractLsb' 0 16 = w := by
  ext i hi
  simp only [BitVec.getElem_append, BitVec.getElem_extractLsb']
  interval_cases i <;> simp

/-! ## Fields of `pack` and `packImm` -/

section
variable (op : BitVec 8) (rd ra rb rc : Reg) (imm : BitVec 16)

@[simp] theorem fieldOp_pack : fieldOp (pack op rd ra rb rc) = op := (extract_append _ _ _ _ _ _ _ rfl).1

@[simp] theorem fieldRd_pack : fieldRd (pack op rd ra rb rc) = rd :=
  congrArg BitVec.toFin (extract_append _ _ _ _ _ _ _ rfl).2.1

@[simp] theorem fieldRa_pack : fieldRa (pack op rd ra rb rc) = ra :=
  congrArg BitVec.toFin (extract_append _ _ _ _ _ _ _ rfl).2.2.1

@[simp] theorem fieldRb_pack : fieldRb (pack op rd ra rb rc) = rb :=
  congrArg BitVec.toFin (extract_append _ _ _ _ _ _ _ rfl).2.2.2.1

@[simp] theorem fieldRc_pack : fieldRc (pack op rd ra rb rc) = rc :=
  congrArg BitVec.toFin (extract_append _ _ _ _ _ _ _ rfl).2.2.2.2.1

@[simp] theorem fieldOp_packImm : fieldOp (packImm op rd ra imm) = op := (extract_append_imm _ _ _ _ _ rfl).1

@[simp] theorem fieldRd_packImm : fieldRd (packImm op rd ra imm) = rd :=
  congrArg BitVec.toFin (extract_append_imm _ _ _ _ _ rfl).2.1

@[simp] theorem fieldRa_packImm : fieldRa (packImm op rd ra imm) = ra :=
  congrArg BitVec.toFin (extract_append_imm _ _ _ _ _ rfl).2.2.1

@[simp] theorem fieldImm16_packImm : fieldImm16 (packImm op rd ra imm) = imm :=
  (extract_append_imm _ _ _ _ _ rfl).2.2.2

end

/-! ## Zero fields -/

/-- A word's bits under a mask, field by field. -/
theorem append_and_append (o o' : BitVec 8) (a a' b b' c c' d d' : BitVec 4) (z z' : BitVec 8) :
    (o ++ a ++ b ++ c ++ d ++ z) &&& (o' ++ a' ++ b' ++ c' ++ d' ++ z') =
      (o &&& o') ++ (a &&& a') ++ (b &&& b') ++ (c &&& c') ++ (d &&& d') ++ (z &&& z') := by
  simp only [BitVec.and_append]

theorem append_and_append_imm (o o' : BitVec 8) (a a' b b' : BitVec 4) (z z' : BitVec 16) :
    (o ++ a ++ b ++ z) &&& (o' ++ a' ++ b' ++ z') = (o &&& o') ++ (a &&& a') ++ (b &&& b') ++ (z &&& z') := by
  simp only [BitVec.and_append]

/-- The bits of a packed word under a mask given by its fields. -/
theorem pack_and (op : BitVec 8) (rd ra rb rc : Reg) (a b c d : BitVec 4) (z : BitVec 8) :
    pack op rd ra rb rc &&& ((0 : BitVec 8) ++ a ++ b ++ c ++ d ++ z) =
      (0 : BitVec 8) ++ (regField rd &&& a) ++ (regField ra &&& b) ++ (regField rb &&& c) ++ (regField rc &&& d) ++
        (0 : BitVec 8) := by
  unfold pack
  rw [append_and_append]
  simp

theorem packImm_and (op : BitVec 8) (rd ra : Reg) (imm : BitVec 16) (a b : BitVec 4) :
    packImm op rd ra imm &&& ((0 : BitVec 8) ++ a ++ b ++ (0 : BitVec 16)) =
      (0 : BitVec 8) ++ (regField rd &&& a) ++ (regField ra &&& b) ++ (0 : BitVec 16) := by
  unfold packImm
  rw [append_and_append_imm]
  simp

theorem pack_zero_r4 (op : BitVec 8) (rd ra rb rc : Reg) : pack op rd ra rb rc &&& Format.zeroBits .r4 = 0 :=
  (pack_and op rd ra rb rc 0 0 0 0 0xFF).trans (by simp)

theorem pack_zero_r3 (op : BitVec 8) (rd ra rb : Reg) : pack op rd ra rb 0 &&& Format.zeroBits .r3 = 0 :=
  (pack_and op rd ra rb 0 0 0 0 0xF 0xFF).trans (by simp; rfl)

theorem pack_zero_r2 (op : BitVec 8) (rd ra : Reg) : pack op rd ra 0 0 &&& Format.zeroBits .r2 = 0 :=
  (pack_and op rd ra 0 0 0 0 0xF 0xF 0xFF).trans (by simp; rfl)

theorem pack_zero_r1d (op : BitVec 8) (rd : Reg) : pack op rd 0 0 0 &&& Format.zeroBits .r1d = 0 :=
  (pack_and op rd 0 0 0 0 0xF 0xF 0xF 0xFF).trans (by simp; rfl)

theorem pack_zero_r1s (op : BitVec 8) (ra : Reg) : pack op 0 ra 0 0 &&& Format.zeroBits .r1s = 0 :=
  (pack_and op 0 ra 0 0 0xF 0 0xF 0xF 0xFF).trans (by simp; rfl)

theorem pack_zero_rc (op : BitVec 8) (ra rb : Reg) : pack op 0 ra rb 0 &&& Format.zeroBits .rc = 0 :=
  (pack_and op 0 ra rb 0 0xF 0 0 0xF 0xFF).trans (by simp; rfl)

theorem pack_zero_n (op : BitVec 8) : pack op 0 0 0 0 &&& Format.zeroBits .n = 0 :=
  (pack_and op 0 0 0 0 0xF 0xF 0xF 0xF 0xFF).trans (by simp; rfl)

theorem packImm_zero_i (op : BitVec 8) (rd ra : Reg) (imm : BitVec 16) :
    packImm op rd ra imm &&& Format.zeroBits .i = 0 := by
  simp [Format.zeroBits]

theorem packImm_zero_ic (op : BitVec 8) (ra : Reg) (imm : BitVec 16) :
    packImm op 0 ra imm &&& Format.zeroBits .ic = 0 :=
  (packImm_and op 0 ra imm 0xF 0).trans (by simp; rfl)

theorem packImm_zero_id (op : BitVec 8) (rd : Reg) (imm : BitVec 16) :
    packImm op rd 0 imm &&& Format.zeroBits .id = 0 :=
  (packImm_and op rd 0 imm 0 0xF).trans (by simp; rfl)

/-- A field that a mask covers whole is 0 where the masked word is 0. -/
theorem extract_eq_zero {k n : Nat} (w m : CommandWord) (h : w &&& m = 0) (hm : m.extractLsb' k n = BitVec.allOnes n) :
    w.extractLsb' k n = 0 := by
  have := congrArg (BitVec.extractLsb' k n) h
  rw [BitVec.extractLsb'_and, hm, BitVec.and_allOnes] at this
  rw [this]
  simp

/-- A word whose low byte is 0 is packed from its fields. -/
theorem pack_fields (w : CommandWord) (h : w.extractLsb' 0 8 = 0) :
    pack (fieldOp w) (fieldRd w) (fieldRa w) (fieldRb w) (fieldRc w) = w := by
  conv_rhs => rw [← append_fields w, h]
  rfl

theorem packImm_fields (w : CommandWord) : packImm (fieldOp w) (fieldRd w) (fieldRa w) (fieldImm16 w) = w :=
  append_fields_imm w

theorem reg_eq_zero_of_field {r : Reg} (h : regField r = 0) : r = 0 := congrArg BitVec.toFin h

/-! A word whose zero fields are 0 is packed from the fields its format uses. -/

theorem pack_fields_r4 (w : CommandWord) (h : w &&& Format.zeroBits .r4 = 0) :
    pack (fieldOp w) (fieldRd w) (fieldRa w) (fieldRb w) (fieldRc w) = w := by
  have := pack_fields w (extract_eq_zero w _ h (by decide))
  exact this

theorem pack_fields_r3 (w : CommandWord) (h : w &&& Format.zeroBits .r3 = 0) :
    pack (fieldOp w) (fieldRd w) (fieldRa w) (fieldRb w) 0 = w := by
  have hrc : fieldRc w = 0 := reg_eq_zero_of_field (extract_eq_zero (k := 8) (n := 4) w _ h (by decide))
  have := pack_fields w (extract_eq_zero w _ h (by decide))
  rwa [hrc] at this

theorem pack_fields_r2 (w : CommandWord) (h : w &&& Format.zeroBits .r2 = 0) :
    pack (fieldOp w) (fieldRd w) (fieldRa w) 0 0 = w := by
  have hrb : fieldRb w = 0 := reg_eq_zero_of_field (extract_eq_zero (k := 12) (n := 4) w _ h (by decide))
  have hrc : fieldRc w = 0 := reg_eq_zero_of_field (extract_eq_zero (k := 8) (n := 4) w _ h (by decide))
  have := pack_fields w (extract_eq_zero w _ h (by decide))
  rwa [hrb, hrc] at this

theorem pack_fields_r1d (w : CommandWord) (h : w &&& Format.zeroBits .r1d = 0) :
    pack (fieldOp w) (fieldRd w) 0 0 0 = w := by
  have hra : fieldRa w = 0 := reg_eq_zero_of_field (extract_eq_zero (k := 16) (n := 4) w _ h (by decide))
  have hrb : fieldRb w = 0 := reg_eq_zero_of_field (extract_eq_zero (k := 12) (n := 4) w _ h (by decide))
  have hrc : fieldRc w = 0 := reg_eq_zero_of_field (extract_eq_zero (k := 8) (n := 4) w _ h (by decide))
  have := pack_fields w (extract_eq_zero w _ h (by decide))
  rwa [hra, hrb, hrc] at this

theorem pack_fields_r1s (w : CommandWord) (h : w &&& Format.zeroBits .r1s = 0) :
    pack (fieldOp w) 0 (fieldRa w) 0 0 = w := by
  have hrd : fieldRd w = 0 := reg_eq_zero_of_field (extract_eq_zero (k := 20) (n := 4) w _ h (by decide))
  have hrb : fieldRb w = 0 := reg_eq_zero_of_field (extract_eq_zero (k := 12) (n := 4) w _ h (by decide))
  have hrc : fieldRc w = 0 := reg_eq_zero_of_field (extract_eq_zero (k := 8) (n := 4) w _ h (by decide))
  have := pack_fields w (extract_eq_zero w _ h (by decide))
  rwa [hrd, hrb, hrc] at this

theorem pack_fields_rc (w : CommandWord) (h : w &&& Format.zeroBits .rc = 0) :
    pack (fieldOp w) 0 (fieldRa w) (fieldRb w) 0 = w := by
  have hrd : fieldRd w = 0 := reg_eq_zero_of_field (extract_eq_zero (k := 20) (n := 4) w _ h (by decide))
  have hrc : fieldRc w = 0 := reg_eq_zero_of_field (extract_eq_zero (k := 8) (n := 4) w _ h (by decide))
  have := pack_fields w (extract_eq_zero w _ h (by decide))
  rwa [hrd, hrc] at this

theorem pack_fields_n (w : CommandWord) (h : w &&& Format.zeroBits .n = 0) :
    pack (fieldOp w) 0 0 0 0 = w := by
  have hrd : fieldRd w = 0 := reg_eq_zero_of_field (extract_eq_zero (k := 20) (n := 4) w _ h (by decide))
  have hra : fieldRa w = 0 := reg_eq_zero_of_field (extract_eq_zero (k := 16) (n := 4) w _ h (by decide))
  have hrb : fieldRb w = 0 := reg_eq_zero_of_field (extract_eq_zero (k := 12) (n := 4) w _ h (by decide))
  have hrc : fieldRc w = 0 := reg_eq_zero_of_field (extract_eq_zero (k := 8) (n := 4) w _ h (by decide))
  have := pack_fields w (extract_eq_zero w _ h (by decide))
  rwa [hrd, hra, hrb, hrc] at this

theorem packImm_fields_ic (w : CommandWord) (h : w &&& Format.zeroBits .ic = 0) :
    packImm (fieldOp w) 0 (fieldRa w) (fieldImm16 w) = w := by
  have hrd : fieldRd w = 0 := reg_eq_zero_of_field (extract_eq_zero (k := 20) (n := 4) w _ h (by decide))
  have := packImm_fields w
  rwa [hrd] at this

theorem packImm_fields_id (w : CommandWord) (h : w &&& Format.zeroBits .id = 0) :
    packImm (fieldOp w) (fieldRd w) 0 (fieldImm16 w) = w := by
  have hra : fieldRa w = 0 := reg_eq_zero_of_field (extract_eq_zero (k := 16) (n := 4) w _ h (by decide))
  have := packImm_fields w
  rwa [hra] at this

/-! ## The opcode map -/

@[simp] theorem opcodeOf_byte (o : Opcode) : opcodeOf o.byte = some o := by cases o <;> rfl

theorem byte_of_opcodeOf {b : BitVec 8} {o : Opcode} (h : opcodeOf b = some o) : o.byte = b := by
  have all : ∀ b : BitVec 8, ((opcodeOf b).map Opcode.byte).getD b = b := by decide
  simpa [h] using all b

/-- Decoding a word whose opcode is assigned and whose zero fields are 0, where the constraints of R97 hold. -/
theorem decode_of_opcode {w : CommandWord} {o : Opcode} (hop : fieldOp w = o.byte) (hz : w &&& o.format.zeroBits = 0)
    (hm : o = .mulw → Reg.isEven (fieldRd w) = true) (hd : o = .divrem → fieldRd w ≠ fieldRc w) :
    decode w = .command (o.command w) := by
  have h1 : ¬(o = .mulw ∧ Reg.isEven (fieldRd w) = false) := fun h => by simp [hm h.1] at h
  have h2 : ¬(o = .divrem ∧ fieldRd w = fieldRc w) := fun h => hd h.1 h.2
  simp [decode, hop, hz, h1, h2]

/-- What a word that decodes to a command must satisfy. -/
theorem decode_command_cases {w : CommandWord} {i : Instr} (h : decode w = .command i) :
    ∃ o : Opcode, fieldOp w = o.byte ∧ w &&& o.format.zeroBits = 0 ∧
      (o = .mulw → Reg.isEven (fieldRd w) = true) ∧ (o = .divrem → fieldRd w ≠ fieldRc w) ∧ i = o.command w := by
  unfold decode at h
  split at h
  · simp at h
  · next o ho =>
    refine ⟨o, (byte_of_opcodeOf ho).symm, ?_⟩
    split at h
    · simp at h
    · next hz =>
      split at h
      · simp at h
      · next hm =>
        split at h
        · simp at h
        · next hd =>
          refine ⟨not_not.mp hz, fun e => ?_, fun e e' => hd ⟨e, e'⟩, (Decoded.command.inj h).symm⟩
          by_contra hne
          exact hm ⟨e, by simpa using hne⟩

/-! ## Words of one opcode -/

/-- A word with a zero field that is not 0 is no command (30_encoding.md R94). -/
theorem decode_of_nonzero {w : CommandWord} {o : Opcode} (hop : fieldOp w = o.byte) (hz : w &&& o.format.zeroBits ≠ 0) :
    decode w = .illegal .nonzeroZeroField := by
  simp only [decode, hop, opcodeOf_byte]
  exact if_pos hz

/-- An opcode without a constraint of R97 decodes by its format alone. -/
theorem decodesAs (o : Opcode) (hm : o ≠ .mulw) (hd : o ≠ .divrem) (command : CommandWord → Instr)
    (h : ∀ w, command w = o.command w) : Safety.DecodesAs o.byte o.format.zeroBits command := by
  intro w hop
  refine ⟨fun hz => ?_, fun hz s => ?_⟩
  · rw [h]
    exact decode_of_opcode hop hz (fun e => absurd e hm) (fun e => absurd e hd)
  · simp only [Machine.runCommand, decode_of_nonzero hop hz]
    exact Machine.fail_raises s _

end Sys2Proof
end

