-- ==== Sys2Proof/Laws/Limbs.lean ====
section
/-! SUPPORT. Limbs: their range, their bits, and putting them together again (00_scope.md R12). -/

namespace Sys2Proof.Machine

/-! ## One limb -/

theorem limb_lt (w v j : Nat) : limb w v j < 2 ^ w := Nat.mod_lt _ (Nat.two_pow_pos w)

theorem testBit_limb (w v j i : Nat) : (limb w v j).testBit i = (decide (i < w) && v.testBit (j * w + i)) := by
  rw [limb, Nat.testBit_mod_two_pow, Nat.testBit_div_two_pow, Nat.add_comm i]

theorem limb_succ (w v j : Nat) : limb w v (j + 1) = limb w (v / 2 ^ w) j := by
  rw [limb, limb, Nat.div_div_eq_div_mul, ← pow_add, Nat.succ_mul, Nat.add_comm (j * w)]

/-- A limb beyond the width of a value is 0. -/
theorem limb_eq_zero (w n v j : Nat) (hv : v < 2 ^ (n * w)) (hj : n ≤ j) : limb w v j = 0 := by
  have : v < 2 ^ (j * w) := lt_of_lt_of_le hv (Nat.pow_le_pow_right (by decide) (Nat.mul_le_mul_right w hj))
  rw [limb, Nat.div_eq_of_lt this, Nat.zero_mod]

/-! ## All limbs -/

theorem ofLimbs_map_range_succ (w n : Nat) (f : Nat → Nat) :
    ofLimbs w ((List.range (n + 1)).map f) = f 0 + 2 ^ w * ofLimbs w ((List.range n).map fun j => f (j + 1)) := by
  rw [List.range_succ_eq_map, List.map_cons, List.map_map, ofLimbs]
  rfl

/-- The limbs of a value make up its low `n * w` bits (00_scope.md R12). -/
theorem ofLimbs_limbsOf (w n v : Nat) : ofLimbs w (limbsOf w n v) = v % 2 ^ (n * w) := by
  unfold limbsOf
  induction n generalizing v with
  | zero => simp [ofLimbs, Nat.mod_one]
  | succ n ih =>
    rw [ofLimbs_map_range_succ]
    simp only [limb_succ]
    rw [ih, Nat.succ_mul, Nat.add_comm (n * w), pow_add, Nat.mod_mul]
    simp [limb]

theorem ofLimbs_lt (w n : Nat) (f : Nat → Nat) (hf : ∀ j, j < n → f j < 2 ^ w) :
    ofLimbs w ((List.range n).map f) < 2 ^ (n * w) := by
  induction n generalizing f with
  | zero => simp [ofLimbs]
  | succ n ih =>
    have h0 := hf 0 (by omega)
    have h1 := ih (fun j => f (j + 1)) fun j hj => hf (j + 1) (by omega)
    rw [ofLimbs_map_range_succ, Nat.succ_mul, Nat.add_comm (n * w), pow_add]
    calc f 0 + 2 ^ w * ofLimbs w ((List.range n).map fun j => f (j + 1))
        < 2 ^ w + 2 ^ w * ofLimbs w ((List.range n).map fun j => f (j + 1)) := by omega
      _ = 2 ^ w * (ofLimbs w ((List.range n).map fun j => f (j + 1)) + 1) := by ring
      _ ≤ 2 ^ w * 2 ^ (n * w) := Nat.mul_le_mul_left _ h1

/-- Bit `i` of a limb list is bit `i mod w` of limb `i div w`. -/
theorem testBit_ofLimbs (w n : Nat) (hw : 0 < w) (f : Nat → Nat) (hf : ∀ j, j < n → f j < 2 ^ w) (i : Nat) :
    (ofLimbs w ((List.range n).map f)).testBit i = (decide (i < n * w) && (f (i / w)).testBit (i % w)) := by
  induction n generalizing f i with
  | zero => simp [ofLimbs]
  | succ n ih =>
    rw [ofLimbs_map_range_succ, Nat.add_comm, Nat.testBit_two_pow_mul_add _ (hf 0 (by omega))]
    by_cases hi : i < w
    · have hlt : i < (n + 1) * w := lt_of_lt_of_le hi (Nat.le_mul_of_pos_left w (by omega))
      simp [hi, hlt, Nat.div_eq_of_lt hi, Nat.mod_eq_of_lt hi]
    · have hle : w ≤ i := Nat.le_of_not_lt hi
      have hdiv : i / w = (i - w) / w + 1 := by rw [Nat.div_eq_sub_div hw hle]
      have hmod : i % w = (i - w) % w := Nat.mod_eq_sub_mod hle
      have hlt : (i - w < n * w) = (i < (n + 1) * w) := by
        rw [Nat.succ_mul]
        exact propext (by omega)
      rw [if_neg hi, ih _ (fun j hj => hf (j + 1) (by omega)), hdiv, hmod]
      simp only [hlt]

/-! ## Writing one limb -/

/-- A value split at limb `j`. -/
theorem split_at_limb (w v j : Nat) :
    v = v % 2 ^ (j * w) + 2 ^ (j * w) * (limb w v j + 2 ^ w * (v / 2 ^ ((j + 1) * w))) := by
  have h1 := Nat.mod_add_div v (2 ^ (j * w))
  have h2 := Nat.mod_add_div (v / 2 ^ (j * w)) (2 ^ w)
  have h3 : v / 2 ^ ((j + 1) * w) = v / 2 ^ (j * w) / 2 ^ w := by
    rw [Nat.div_div_eq_div_mul, ← pow_add, Nat.succ_mul]
  rw [h3, limb, h2, h1]

/-- 20_memory.md R64 in split form. -/
theorem withLimb_eq (w v j x : Nat) :
    withLimb w v j x = v % 2 ^ (j * w) + 2 ^ (j * w) * (x + 2 ^ w * (v / 2 ^ ((j + 1) * w))) := by
  have h := split_at_limb w v j
  have hle : limb w v j * 2 ^ (j * w) ≤ v := by
    conv_rhs => rw [h]
    calc limb w v j * 2 ^ (j * w) = 2 ^ (j * w) * limb w v j := Nat.mul_comm _ _
      _ ≤ 2 ^ (j * w) * (limb w v j + 2 ^ w * (v / 2 ^ ((j + 1) * w))) :=
          Nat.mul_le_mul_left _ (Nat.le_add_right _ _)
      _ ≤ _ := Nat.le_add_left _ _
  unfold withLimb
  have key : v - limb w v j * 2 ^ (j * w) = v % 2 ^ (j * w) + 2 ^ (j * w) * (2 ^ w * (v / 2 ^ ((j + 1) * w))) := by
    apply Nat.sub_eq_of_eq_add
    conv_lhs => rw [h]
    ring
  rw [key]
  ring

/-- Bit `i` after a limb write: a bit of `x` inside limb `j`, the old bit outside it. -/
theorem testBit_withLimb (w v j x i : Nat) (hx : x < 2 ^ w) :
    (withLimb w v j x).testBit i =
      if j * w ≤ i ∧ i < (j + 1) * w then x.testBit (i - j * w) else v.testBit i := by
  have hsucc : (j + 1) * w = j * w + w := Nat.succ_mul j w
  rw [withLimb_eq, Nat.add_comm, Nat.testBit_two_pow_mul_add _ (Nat.mod_lt _ (Nat.two_pow_pos _))]
  by_cases h1 : i < j * w
  · rw [if_pos h1, if_neg (by omega), Nat.testBit_mod_two_pow]
    simp [h1]
  · rw [if_neg h1, Nat.add_comm x, Nat.testBit_two_pow_mul_add _ hx]
    by_cases h2 : i - j * w < w
    · rw [if_pos h2, if_pos (by omega)]
    · rw [if_neg h2, if_neg (by omega), Nat.testBit_div_two_pow]
      congr 1
      omega

/-- H_WLIMB makes limb `j` equal to `x` (20_memory.md R64). -/
theorem limb_withLimb_same (w v j x : Nat) (hx : x < 2 ^ w) : limb w (withLimb w v j x) j = x := by
  apply Nat.eq_of_testBit_eq
  intro i
  rw [testBit_limb, testBit_withLimb w v j x _ hx]
  by_cases hi : i < w
  · have hsucc : (j + 1) * w = j * w + w := Nat.succ_mul j w
    rw [if_pos (by omega)]
    simp [hi]
  · simp only [hi, decide_false, Bool.false_and]
    exact (Nat.testBit_lt_two_pow (lt_of_lt_of_le hx (Nat.pow_le_pow_right (by decide) (by omega)))).symm

/-- H_WLIMB leaves every other limb (20_memory.md R64). -/
theorem limb_withLimb_of_ne (w v j k x : Nat) (hx : x < 2 ^ w) (hk : k ≠ j) :
    limb w (withLimb w v j x) k = limb w v k := by
  apply Nat.eq_of_testBit_eq
  intro i
  rw [testBit_limb, testBit_limb, testBit_withLimb w v j x _ hx]
  by_cases hi : i < w
  · have : ¬ (j * w ≤ k * w + i ∧ k * w + i < (j + 1) * w) := by
      rintro ⟨h1, h2⟩
      apply hk
      have h3 : j = (k * w + i) / w := by
        symm
        rw [Nat.div_eq_iff (by omega)]
        rw [Nat.succ_mul] at h2
        omega
      rw [h3, Nat.mul_comm, Nat.mul_add_div (by omega), Nat.div_eq_of_lt hi, Nat.add_zero]
    rw [if_neg this]
  · simp [hi]

/-- A limb write inside `n` limbs keeps the value inside them. -/
theorem withLimb_lt (w n v j x : Nat) (hv : v < 2 ^ (n * w)) (hj : j < n) (hx : x < 2 ^ w) :
    withLimb w v j x < 2 ^ (n * w) := by
  apply Nat.lt_pow_two_of_testBit
  intro i hi
  have hle : (j + 1) * w ≤ n * w := Nat.mul_le_mul_right w hj
  rw [testBit_withLimb w v j x _ hx, if_neg (by omega)]
  exact Nat.testBit_lt_two_pow (lt_of_lt_of_le hv (Nat.pow_le_pow_right (by decide) hi))

/-- `BITS` is `NLIMB` limbs (00_scope.md R10). -/
theorem params_nlimb_mul (p : Config.Params) : p.nlimb * p.limbW.bits = p.bits := by
  have := Nat.div_add_mod p.bits p.limbW.bits
  rw [p.limbs_fill, Nat.add_zero, Nat.mul_comm] at this
  exact this

end Sys2Proof.Machine
end

