-- ==== Sys2Proof/Laws/Operands.lean ====
section
/-! SUPPORT. The value-level operand forms, in the terms the spec's rules use: the difference modulo `2^BITS`, the shifter, the
three-way order and the set-compare values. -/

namespace Sys2Proof.Machine

/-- The difference as an integer (41_arith.md R132). -/
theorem subMod_cast (bits x y : Nat) : (subMod bits x y : Int) = ((x : Int) - (y : Int)) % (2 ^ bits : Int) :=
  Int.toNat_of_nonneg (Int.emod_nonneg _ (by positivity))

theorem subMod_lt (bits x y : Nat) : subMod bits x y < 2 ^ bits := by
  have h := Int.emod_lt_of_pos ((x : Int) - (y : Int)) (by positivity : (0 : Int) < 2 ^ bits)
  rw [← subMod_cast] at h
  exact_mod_cast h

/-- The two cases of the left shift are one formula (42_bitwise_shift.md R164). -/
theorem shiftLeft_eq (bits x s : Nat) : shiftLeft bits x s = x * 2 ^ s % 2 ^ bits := by
  unfold shiftLeft
  split
  · next h => exact (Nat.mod_eq_zero_of_dvd (Dvd.dvd.mul_left (pow_dvd_pow 2 h) _)).symm
  · rfl

/-- The two cases of the right shift are one formula on values of the width (42_bitwise_shift.md R164). -/
theorem shiftRight_eq (bits x s : Nat) (hx : x < 2 ^ bits) : shiftRight bits x s = x / 2 ^ s := by
  unfold shiftRight
  split
  · next h => exact (Nat.div_eq_of_lt (lt_of_lt_of_le hx (Nat.pow_le_pow_right (by decide) h))).symm
  · rfl

/-- The immediate fits every instance, whose width is at least 64 (30_encoding.md R93). -/
theorem immValue_lt (s : State) (imm16 : BitVec 16) : immValue imm16 < 2 ^ s.params.bits :=
  lt_of_lt_of_le imm16.isLt (Nat.pow_le_pow_right (by decide) (le_trans (by decide) s.params.native_fits))

theorem one_lt_two_pow (s : State) : 1 < 2 ^ s.params.bits :=
  lt_of_lt_of_le (by decide : 1 < 2 ^ 64) (Nat.pow_le_pow_right (by decide) s.params.native_fits)

/-- A set-compare value fits every instance (43_compare.md R189). -/
theorem truth_lt (s : State) (b : Bool) : truth b < 2 ^ s.params.bits := by
  have := one_lt_two_pow s
  cases b
  · exact Nat.two_pow_pos _
  · exact this

theorem order_eq_lt_iff (x y : Nat) : order x y = .lt ↔ x < y := by grind [order]

theorem order_eq_gt_iff (x y : Nat) : order x y = .gt ↔ y < x := by grind [order]

theorem order_eq_eq_iff (x y : Nat) : order x y = .eq ↔ x = y := by grind [order]

end Sys2Proof.Machine
end

