-- ==== Sys2Proof/Laws/PerInstr.lean ====
section
/-! SUPPORT. Per-instruction family EncodesFields: the word of each command carries the command's opcode, leaves the zero fields
of its format 0, and carries the command's operands (30_encoding.md R90, R91, R94, R95). -/

namespace Sys2Proof.Laws.EncodesFields

/-- The word of `i` has an assigned opcode, its format's zero fields are 0, and its fields are the operands of `i`. -/
def Statement (i : Instr) : Prop :=
  ∃ o : Opcode, fieldOp (encode i) = o.byte ∧ encode i &&& o.format.zeroBits = 0 ∧ o.command (encode i) = i

theorem mov (rd ra : Reg) : Statement (.mov rd ra) :=
  ⟨.mov, by simp [encode, Opcode.byte], pack_zero_r2 _ rd ra,
    by simp [encode, Opcode.command]⟩

theorem ldi (rd : Reg) (imm16 : BitVec 16) : Statement (.ldi rd imm16) :=
  ⟨.ldi, by simp [encode, Opcode.byte], packImm_zero_id _ rd imm16,
    by simp [encode, Opcode.command]⟩

theorem add (rd ra rb : Reg) : Statement (.add rd ra rb) :=
  ⟨.add, by simp [encode, Opcode.byte], pack_zero_r3 _ rd ra rb,
    by simp [encode, Opcode.command]⟩

theorem sub (rd ra rb : Reg) : Statement (.sub rd ra rb) :=
  ⟨.sub, by simp [encode, Opcode.byte], pack_zero_r3 _ rd ra rb,
    by simp [encode, Opcode.command]⟩

theorem mul (rd ra rb : Reg) : Statement (.mul rd ra rb) :=
  ⟨.mul, by simp [encode, Opcode.byte], pack_zero_r3 _ rd ra rb,
    by simp [encode, Opcode.command]⟩

theorem mulw (rd ra rb : Reg) : Statement (.mulw rd ra rb) :=
  ⟨.mulw, by simp [encode, Opcode.byte], pack_zero_r3 _ rd ra rb,
    by simp [encode, Opcode.command]⟩

theorem div (rd ra rb : Reg) : Statement (.div rd ra rb) :=
  ⟨.div, by simp [encode, Opcode.byte], pack_zero_r3 _ rd ra rb,
    by simp [encode, Opcode.command]⟩

theorem rem (rd ra rb : Reg) : Statement (.rem rd ra rb) :=
  ⟨.rem, by simp [encode, Opcode.byte], pack_zero_r3 _ rd ra rb,
    by simp [encode, Opcode.command]⟩

theorem divrem (rd rc ra rb : Reg) : Statement (.divrem rd rc ra rb) :=
  ⟨.divrem, by simp [encode, Opcode.byte], pack_zero_r4 _ rd ra rb rc,
    by simp [encode, Opcode.command]⟩

theorem and (rd ra rb : Reg) : Statement (.and rd ra rb) :=
  ⟨.and, by simp [encode, Opcode.byte], pack_zero_r3 _ rd ra rb,
    by simp [encode, Opcode.command]⟩

theorem or (rd ra rb : Reg) : Statement (.or rd ra rb) :=
  ⟨.or, by simp [encode, Opcode.byte], pack_zero_r3 _ rd ra rb,
    by simp [encode, Opcode.command]⟩

theorem xor (rd ra rb : Reg) : Statement (.xor rd ra rb) :=
  ⟨.xor, by simp [encode, Opcode.byte], pack_zero_r3 _ rd ra rb,
    by simp [encode, Opcode.command]⟩

theorem not (rd ra : Reg) : Statement (.not rd ra) :=
  ⟨.not, by simp [encode, Opcode.byte], pack_zero_r2 _ rd ra,
    by simp [encode, Opcode.command]⟩

theorem shl (rd ra rb : Reg) : Statement (.shl rd ra rb) :=
  ⟨.shl, by simp [encode, Opcode.byte], pack_zero_r3 _ rd ra rb,
    by simp [encode, Opcode.command]⟩

theorem shr (rd ra rb : Reg) : Statement (.shr rd ra rb) :=
  ⟨.shr, by simp [encode, Opcode.byte], pack_zero_r3 _ rd ra rb,
    by simp [encode, Opcode.command]⟩

theorem shli (rd ra : Reg) (imm16 : BitVec 16) : Statement (.shli rd ra imm16) :=
  ⟨.shli, by simp [encode, Opcode.byte], packImm_zero_i _ rd ra imm16,
    by simp [encode, Opcode.command]⟩

theorem shri (rd ra : Reg) (imm16 : BitVec 16) : Statement (.shri rd ra imm16) :=
  ⟨.shri, by simp [encode, Opcode.byte], packImm_zero_i _ rd ra imm16,
    by simp [encode, Opcode.command]⟩

theorem cmp (ra rb : Reg) : Statement (.cmp ra rb) :=
  ⟨.cmp, by simp [encode, Opcode.byte], pack_zero_rc _ ra rb,
    by simp [encode, Opcode.command]⟩

theorem cmpi (ra : Reg) (imm16 : BitVec 16) : Statement (.cmpi ra imm16) :=
  ⟨.cmpi, by simp [encode, Opcode.byte], packImm_zero_ic _ ra imm16,
    by simp [encode, Opcode.command]⟩

theorem seq (rd ra rb : Reg) : Statement (.seq rd ra rb) :=
  ⟨.seq, by simp [encode, Opcode.byte], pack_zero_r3 _ rd ra rb,
    by simp [encode, Opcode.command]⟩

theorem sne (rd ra rb : Reg) : Statement (.sne rd ra rb) :=
  ⟨.sne, by simp [encode, Opcode.byte], pack_zero_r3 _ rd ra rb,
    by simp [encode, Opcode.command]⟩

theorem slt (rd ra rb : Reg) : Statement (.slt rd ra rb) :=
  ⟨.slt, by simp [encode, Opcode.byte], pack_zero_r3 _ rd ra rb,
    by simp [encode, Opcode.command]⟩

theorem sle (rd ra rb : Reg) : Statement (.sle rd ra rb) :=
  ⟨.sle, by simp [encode, Opcode.byte], pack_zero_r3 _ rd ra rb,
    by simp [encode, Opcode.command]⟩

theorem sgt (rd ra rb : Reg) : Statement (.sgt rd ra rb) :=
  ⟨.sgt, by simp [encode, Opcode.byte], pack_zero_r3 _ rd ra rb,
    by simp [encode, Opcode.command]⟩

theorem sge (rd ra rb : Reg) : Statement (.sge rd ra rb) :=
  ⟨.sge, by simp [encode, Opcode.byte], pack_zero_r3 _ rd ra rb,
    by simp [encode, Opcode.command]⟩

theorem parse (rd : Reg) : Statement (.parse rd) :=
  ⟨.parse, by simp [encode, Opcode.byte], pack_zero_r1d _ rd,
    by simp [encode, Opcode.command]⟩

theorem fmtd (ra : Reg) : Statement (.fmtd ra) :=
  ⟨.fmtd, by simp [encode, Opcode.byte], pack_zero_r1s _ ra,
    by simp [encode, Opcode.command]⟩

theorem fmth (ra : Reg) : Statement (.fmth ra) :=
  ⟨.fmth, by simp [encode, Opcode.byte], pack_zero_r1s _ ra,
    by simp [encode, Opcode.command]⟩

theorem modpow (rd ra rb rc : Reg) : Statement (.modpow rd ra rb rc) :=
  ⟨.modpow, by simp [encode, Opcode.byte], pack_zero_r4 _ rd ra rb rc,
    by simp [encode, Opcode.command]⟩

theorem seed (ra : Reg) : Statement (.seed ra) :=
  ⟨.seed, by simp [encode, Opcode.byte], pack_zero_r1s _ ra,
    by simp [encode, Opcode.command]⟩

theorem rand (rd : Reg) : Statement (.rand rd) :=
  ⟨.rand, by simp [encode, Opcode.byte], pack_zero_r1d _ rd,
    by simp [encode, Opcode.command]⟩

theorem urand (rd ra rb : Reg) : Statement (.urand rd ra rb) :=
  ⟨.urand, by simp [encode, Opcode.byte], pack_zero_r3 _ rd ra rb,
    by simp [encode, Opcode.command]⟩

theorem clrst : Statement (.clrst) :=
  ⟨.clrst, by simp [encode, Opcode.byte], pack_zero_n _,
    rfl⟩

end Sys2Proof.Laws.EncodesFields
end

