-- ==== Sys2Proof/Laws/Sequencer.lean ====
section
/-! SUPPORT. The square-and-multiply sequencer computes the modular power (45_modpow.md R221). -/

namespace Sys2Proof.Machine

/-- The bit length in the library's terms. -/
theorem bitlen_eq_size (x : Nat) : bitlen x = Nat.size x := by
  unfold bitlen
  split
  · next h => simp [h]
  · next h =>
    apply le_antisymm
    · have : Nat.log2 x < Nat.size x := Nat.lt_size.2 (Nat.log2_self_le h)
      omega
    · exact Nat.size_le.2 Nat.lt_log2_self

theorem lt_two_pow_bitlen (x : Nat) : x < 2 ^ bitlen x := by
  rw [bitlen_eq_size]
  exact Nat.lt_size_self x

/-- The operations for the low `n` bits carry the power of the higher bits over to the power of all of them. -/
theorem foldl_powOps (b e m n : Nat) :
    (powOps e n).foldl (powApply b m) (b ^ (e / 2 ^ n) % m) = b ^ e % m := by
  induction n with
  | zero => simp [powOps]
  | succ i ih =>
    have hsplit : e / 2 ^ i = 2 * (e / 2 ^ (i + 1)) + e / 2 ^ i % 2 := by
      rw [pow_succ, ← Nat.div_div_eq_div_mul]
      omega
    have hsquare : powApply b m (b ^ (e / 2 ^ (i + 1)) % m) .square = b ^ (2 * (e / 2 ^ (i + 1))) % m := by
      rw [powApply, ← Nat.mul_mod, two_mul (e / 2 ^ (i + 1)), pow_add b]
    unfold powOps
    split
    · next hbit =>
      rw [List.foldl_cons, List.foldl_cons, hsquare]
      have hmul : powApply b m (b ^ (2 * (e / 2 ^ (i + 1))) % m) .multiply = b ^ (e / 2 ^ i) % m := by
        rw [powApply, Nat.mod_mul_mod, ← pow_succ, hsplit, hbit]
      rw [hmul, ih]
    · next hbit =>
      rw [List.foldl_cons, hsquare]
      have : e / 2 ^ i = 2 * (e / 2 ^ (i + 1)) := by omega
      rw [← this, ih]

/-- The sequencer's result is the modular power (45_modpow.md R221). -/
theorem powMod_eq (b e m : Nat) : powMod b e m = b ^ e % m := by
  have := foldl_powOps b e m (bitlen e)
  rwa [Nat.div_eq_of_lt (lt_two_pow_bitlen e), pow_zero] at this

end Sys2Proof.Machine
end

