-- ==== Sys2Proof/Laws/Sampler.lean ====
section
/-! SUPPORT. What the sampler draws, and that its bound on the number of candidates loses nothing (46_random.md R231 to R234,
log 3). -/

namespace Sys2Proof.Machine

open Sys2Proof.Config Sys2Proof.Safety

/-! ## Draws -/

theorem engineAfter_add (p : Params) (m n : Nat) (e : EngineState) :
    engineAfter p (m + n) e = engineAfter p n (engineAfter p m e) := by
  induction m generalizing e with
  | zero => simp [engineAfter]
  | succ m ih =>
    rw [Nat.succ_add]
    exact ih _

theorem rawOutput_engineAfter (p : Params) (m j : Nat) (e : EngineState) :
    rawOutput p (engineAfter p m e) j = rawOutput p e (m + j) := by
  simp [rawOutput, engineAfter_add]

/-- `k` raw draws: the engine after them, and their outputs as limbs, first output least significant (46_random.md R232). -/
theorem assemble_rngDraw (p : Params) (k : Nat) (e : EngineState) :
    assemble (rngDraw p) p.limbW.bits k e =
      (engineAfter p k e, ∑ j ∈ Finset.range k, rawOutput p e j * 2 ^ (j * p.limbW.bits)) := by
  induction k generalizing e with
  | zero => simp [assemble, engineAfter]
  | succ k ih =>
    rw [assemble, ih]
    refine Prod.ext rfl ?_
    change (rngDraw p e).2 + (∑ j ∈ Finset.range k, rawOutput p (rngDraw p e).1 j * 2 ^ (j * p.limbW.bits)) *
      2 ^ p.limbW.bits = ∑ j ∈ Finset.range (k + 1), rawOutput p e j * 2 ^ (j * p.limbW.bits)
    rw [Finset.sum_range_succ', Finset.sum_mul]
    have h0 : (rngDraw p e).2 = rawOutput p e 0 * 2 ^ (0 * p.limbW.bits) := by
      simp [rngDraw, rawOutput, engineAfter]
    rw [h0, add_comm]
    congr 1
    apply Finset.sum_congr rfl
    intro j _
    have h1 : rawOutput p (rngDraw p e).1 j = rawOutput p e (j + 1) := by
      have := rawOutput_engineAfter p 1 j e
      rw [Nat.add_comm j 1]
      exact this
    rw [h1, Nat.succ_mul, pow_add, mul_assoc]

/-- The `n`-th candidate from `e` is the first one from the engine that `n` candidates leave. -/
theorem candidate_engineAfter (p : Params) (k nb n : Nat) (e : EngineState) :
    candidate (rngDraw p) p.limbW.bits k nb (engineAfter p (n * k) e) =
      (engineAfter p ((n + 1) * k) e, candidateAt p k nb e n) := by
  simp only [candidate, assemble_rngDraw, candidateAt, rawOutput_engineAfter]
  rw [← engineAfter_add, Nat.succ_mul]

/-! ## The rejection loop -/

section
variable {σ : Type} (cand : σ → σ × Nat) (m : Nat)

/-- The engine state before candidate `n`. -/
def engineBefore : (n : Nat) → σ → σ
  | 0, e => e
  | n + 1, e => engineBefore n (cand e).1

theorem engineBefore_add (a b : Nat) (e : σ) :
    engineBefore cand (a + b) e = engineBefore cand b (engineBefore cand a e) := by
  induction a generalizing e with
  | zero => simp [engineBefore]
  | succ a ih =>
    rw [Nat.succ_add]
    exact ih _

/-- What the loop answers: the first accepted candidate within its tries. -/
theorem firstAccepted_eq_some (tries n : Nat) (e : σ) (hn : n < tries)
    (hacc : (cand (engineBefore cand n e)).2 < m) (hrej : ∀ i, i < n → m ≤ (cand (engineBefore cand i e)).2) :
    firstAccepted cand m tries e = some (cand (engineBefore cand n e)) := by
  induction n generalizing tries e with
  | zero =>
    obtain ⟨t, rfl⟩ := Nat.exists_eq_succ_of_ne_zero (by omega : tries ≠ 0)
    simp only [engineBefore] at hacc ⊢
    rw [firstAccepted, if_pos hacc]
  | succ n ih =>
    obtain ⟨t, rfl⟩ := Nat.exists_eq_succ_of_ne_zero (by omega : tries ≠ 0)
    have h0 : ¬ (cand e).2 < m := Nat.not_lt.2 (hrej 0 (by omega))
    rw [firstAccepted, if_neg h0]
    exact ih t (cand e).1 (by omega) hacc fun i hi => hrej (i + 1) (by omega)

theorem firstAccepted_eq_none_iff (tries : Nat) (e : σ) :
    firstAccepted cand m tries e = none ↔ ∀ n, n < tries → m ≤ (cand (engineBefore cand n e)).2 := by
  induction tries generalizing e with
  | zero => simp [firstAccepted]
  | succ t ih =>
    rw [firstAccepted]
    split
    · next h =>
      constructor
      · intro h'
        cases h'
      · intro h'
        have := h' 0 (by omega)
        simp only [engineBefore] at this
        omega
    · next h =>
      rw [ih]
      constructor
      · intro h' n hn
        cases n with
        | zero => exact Nat.le_of_not_lt h
        | succ n => exact h' n (by omega)
      · intro h' n hn
        exact h' (n + 1) (by omega)

/-- On a finite engine, as many rejected candidates as it has states are followed by rejected candidates for ever: a state
has come back. -/
theorem all_rejected_of_card [Fintype σ] (e : σ)
    (h : ∀ n, n ≤ Fintype.card σ → m ≤ (cand (engineBefore cand n e)).2) (n : Nat) :
    m ≤ (cand (engineBefore cand n e)).2 := by
  obtain ⟨a, b, hab, hb, heq⟩ : ∃ a b, a < b ∧ b ≤ Fintype.card σ ∧
      engineBefore cand a e = engineBefore cand b e := by
    let f : Fin (Fintype.card σ + 1) → σ := fun i => engineBefore cand i e
    obtain ⟨x, y, hne, hxy⟩ := Fintype.exists_ne_map_eq_of_card_lt f (by simp)
    rcases Nat.lt_or_gt_of_ne (fun h => hne (Fin.ext h)) with hlt | hlt
    · exact ⟨x, y, hlt, by omega, hxy⟩
    · exact ⟨y, x, hlt, by omega, hxy.symm⟩
  induction n using Nat.strong_induction_on with
  | _ n ih =>
    by_cases hn : n ≤ b
    · exact h n (by omega)
    · have hback : engineBefore cand n e = engineBefore cand (a + (n - b)) e := by
        rw [engineBefore_add, heq, ← engineBefore_add]
        congr 1
        omega
      rw [hback]
      exact ih _ (by omega)

end

/-- The engine before candidate `n` of the block's sampler. -/
theorem engineBefore_candidate (p : Params) (k nb n : Nat) (e : EngineState) :
    engineBefore (candidate (rngDraw p) p.limbW.bits k nb) n e = engineAfter p (n * k) e := by
  induction n generalizing e with
  | zero => simp [engineBefore, engineAfter]
  | succ n ih =>
    rw [engineBefore, ih]
    have := congrArg Prod.fst (candidate_engineAfter p k nb 0 e)
    simp only [Nat.zero_mul, Nat.zero_add, Nat.one_mul] at this
    rw [show engineAfter p 0 e = e from rfl] at this
    rw [this, ← engineAfter_add, Nat.succ_mul, Nat.add_comm]

/-! ## The sampler of the block -/

section
variable (p : Params) (low high : Nat) (e : EngineState)

/-- `k` and `nb` of 46_random.md R231 for a range. -/
theorem sample_none_iff (nb k : Nat) (hnb : nb = rangeBits (rangeSize low high)) (hk : k = drawsPerCandidate p.limbW.bits nb) :
    sample p low high e = none ↔ ∀ n, rangeSize low high ≤ candidateAt p k nb e n := by
  have hcand : ∀ n, (candidate (rngDraw p) p.limbW.bits k nb
      (engineBefore (candidate (rngDraw p) p.limbW.bits k nb) n e)).2 = candidateAt p k nb e n := fun n => by
    rw [engineBefore_candidate, candidate_engineAfter]
  have hs : sample p low high e = none ↔
      firstAccepted (candidate (rngDraw p) p.limbW.bits k nb) (rangeSize low high) enoughTries e = none := by
    subst hnb hk
    unfold sample
    dsimp only
    split <;> simp_all
  rw [hs, firstAccepted_eq_none_iff]
  constructor
  · intro h n
    have := all_rejected_of_card (candidate (rngDraw p) p.limbW.bits k nb) (rangeSize low high) e
      (fun i hi => h i (by
        have hcard : Fintype.card EngineState = 2 ^ engineWidth := by
          rw [Fintype.card_congr ⟨BitVec.toFin, BitVec.ofFin, fun _ => rfl, fun _ => rfl⟩, Fintype.card_fin]
        unfold enoughTries
        omega)) n
    rwa [hcand] at this
  · intro h n _
    rw [hcand]
    exact h n

/-- The accepted candidate, if there is one, is what `sample` returns, with the engine after exactly its draws. -/
theorem sample_eq_some (nb k n : Nat) (hnb : nb = rangeBits (rangeSize low high))
    (hk : k = drawsPerCandidate p.limbW.bits nb) (hacc : candidateAt p k nb e n < rangeSize low high)
    (hrej : ∀ i, i < n → rangeSize low high ≤ candidateAt p k nb e i) :
    sample p low high e = some (engineAfter p ((n + 1) * k) e, low + candidateAt p k nb e n) := by
  have hsome : sample p low high e ≠ none := by
    rw [Ne, sample_none_iff p low high e nb k hnb hk]
    intro h
    exact absurd (h n) (by omega)
  have hcand : ∀ n, (candidate (rngDraw p) p.limbW.bits k nb
      (engineBefore (candidate (rngDraw p) p.limbW.bits k nb) n e)) =
        (engineAfter p ((n + 1) * k) e, candidateAt p k nb e n) := fun n => by
    rw [engineBefore_candidate, candidate_engineAfter]
  by_cases hn : n < enoughTries
  · have := firstAccepted_eq_some (candidate (rngDraw p) p.limbW.bits k nb) (rangeSize low high) enoughTries n e hn
      (by rw [hcand]; exact hacc) (fun i hi => by rw [hcand]; exact hrej i hi)
    subst hnb hk
    simp only [sample, this, hcand]
  · exfalso
    apply hsome
    subst hnb hk
    have : firstAccepted (candidate (rngDraw p) p.limbW.bits (drawsPerCandidate p.limbW.bits (rangeBits (rangeSize low high)))
        (rangeBits (rangeSize low high))) (rangeSize low high) enoughTries e = none := by
      rw [firstAccepted_eq_none_iff]
      intro i hi
      rw [hcand]
      exact hrej i (by omega)
    simp only [sample, this]

end

/-- A raw output is a limb (46_random.md R233). -/
theorem rawOutput_lt (p : Params) (e : EngineState) (j : Nat) : rawOutput p e j < 2 ^ p.limbW.bits := (rngStep _ _).2.isLt

/-- `k` limbs make up a value of `k` limbs (46_random.md R232). -/
theorem sum_limbs_lt (w : Nat) (f : Nat → Nat) (hf : ∀ j, f j < 2 ^ w) (k : Nat) :
    ∑ j ∈ Finset.range k, f j * 2 ^ (j * w) < 2 ^ (k * w) := by
  induction k with
  | zero => simp
  | succ k ih =>
    rw [Finset.sum_range_succ, Nat.succ_mul, pow_add]
    have hk := hf k
    have h1 : f k * 2 ^ (k * w) ≤ (2 ^ w - 1) * 2 ^ (k * w) := Nat.mul_le_mul_right _ (by omega)
    have h2 : (2 ^ w - 1) * 2 ^ (k * w) + 2 ^ (k * w) = 2 ^ (k * w) * 2 ^ w := by
      rw [← Nat.succ_mul, Nat.succ_eq_add_one, Nat.sub_add_cancel Nat.one_le_two_pow, mul_comm]
    omega

/-- `sample(0, MAX)` is the first candidate of NLIMB draws and BITS bits (46_random.md R235). -/
theorem sampleFull_eq (p : Params) (e : EngineState) :
    sampleFull p e = (engineAfter p p.nlimb e, candidateAt p p.nlimb p.bits e 0) := by
  have := candidate_engineAfter p p.nlimb p.bits 0 e
  simp only [Nat.zero_mul, Nat.zero_add, Nat.one_mul] at this
  exact this

end Sys2Proof.Machine
end

