-- ==== Sys2Proof/Laws/Text.lean ====
section
/-! SUPPORT. Literal text: what PARSE reads and what FMTD and FMTH emit, in the terms of Safety. -/

namespace Sys2Proof.Machine

open Sys2Proof.Safety

/-! ## Reading -/

/-- The running total is the digit sum modulo `2^BITS` (44_literal.md R201). -/
theorem accumulate_eq (bits base : Nat) (vs : List Nat) :
    accumulate bits base vs = digitSum base vs % 2 ^ bits := by
  have step : ∀ (vs : List Nat) (acc : Nat),
      vs.foldl (fun acc v => trunc bits (acc * base + v)) (acc % 2 ^ bits) =
        (acc * base ^ vs.length + digitSum base vs) % 2 ^ bits := by
    intro vs
    induction vs with
    | nil => intro acc; simp [digitSum]
    | cons v vs ih =>
      intro acc
      have h : trunc bits (acc % 2 ^ bits * base + v) = (acc * base + v) % 2 ^ bits := by
        simp [trunc, Nat.add_mod, Nat.mul_mod]
      rw [List.foldl_cons, h, ih (acc * base + v)]
      congr 1
      simp only [digitSum, List.reverse_cons, Nat.ofDigits_append, List.length_reverse, List.length_cons]
      simp [Nat.ofDigits_cons]
      ring
  have := step vs 0
  simpa [accumulate] using this

theorem digitValue_iff (base : Nat) (hb : base = 10 ∨ base = 16) (c : Byte) (v : Nat) :
    digitValue base c = some v ↔ IsDigit base c v := by
  constructor
  · intro h
    unfold digitValue at h
    split at h
    · next hc =>
      obtain rfl := Option.some.inj h
      rcases hb with rfl | rfl
      · exact .decimal hc.1 hc.2
      · exact .hexDecimal hc.1 hc.2
    · split at h
      · next hc =>
        obtain rfl := Option.some.inj h
        obtain ⟨rfl, h1, h2⟩ := hc
        exact .hexLower h1 h2
      · split at h
        · next hc =>
          obtain rfl := Option.some.inj h
          obtain ⟨rfl, h1, h2⟩ := hc
          exact .hexUpper h1 h2
        · simp at h
  · intro h
    unfold digitValue
    cases h with
    | decimal h1 h2 => rw [if_pos ⟨h1, h2⟩]
    | hexDecimal h1 h2 => rw [if_pos ⟨h1, h2⟩]
    | hexLower h1 h2 => rw [if_neg (by omega), if_pos ⟨rfl, h1, h2⟩]
    | hexUpper h1 h2 => rw [if_neg (by omega), if_neg (by omega), if_pos ⟨rfl, h1, h2⟩]

theorem digitValues_iff (base : Nat) (hb : base = 10 ∨ base = 16) (cs : List Byte) (vs : List Nat) :
    digitValues base cs = some vs ↔ List.Forall₂ (IsDigit base) cs vs := by
  induction cs generalizing vs with
  | nil => simp [digitValues, eq_comm]
  | cons c cs ih =>
    unfold digitValues
    rw [List.forall₂_cons_left_iff]
    constructor
    · intro h
      split at h
      · next v us hv hus =>
        obtain rfl := Option.some.inj h
        exact ⟨v, us, (digitValue_iff base hb c v).1 hv, (ih us).1 hus, rfl⟩
      · simp at h
    · rintro ⟨v, us, hv, hus, rfl⟩
      rw [(digitValue_iff base hb c v).2 hv, (ih us).2 hus]

theorem splitPrefix_of_hasPrefix {t : List Byte} (h : HasPrefix t) : splitPrefix t = (16, t.drop 2) := by
  obtain ⟨rest, rfl | rfl⟩ := h <;> simp [splitPrefix]

theorem splitPrefix_of_not_hasPrefix {t : List Byte} (h : ¬ HasPrefix t) : splitPrefix t = (10, t) := by
  unfold splitPrefix
  split
  · next c0 c1 rest =>
    split
    · next hc =>
      obtain ⟨rfl, rfl | rfl⟩ := hc
      · exact absurd ⟨rest, .inl rfl⟩ h
      · exact absurd ⟨rest, .inr rfl⟩ h
    · rfl
  · rfl

/-- `literal` reads exactly the texts of 44_literal.md R200. -/
theorem literal_iff (t : List Byte) (base : Nat) (vs : List Nat) : literal t = some (base, vs) ↔ Spells t base vs := by
  have core : ∀ (b : Nat) (ds : List Byte), (b = 10 ∨ b = 16) → splitPrefix t = (b, ds) →
      (literal t = some (base, vs) ↔ vs ≠ [] ∧ base = b ∧ List.Forall₂ (IsDigit b) ds vs) := by
    intro b ds hb hsp
    unfold literal
    rw [hsp]
    cases ds with
    | nil =>
      constructor
      · simp
      · rintro ⟨hne, -, hf⟩
        cases hf
        exact absurd rfl hne
    | cons c cs =>
      constructor
      · intro h
        simp only at h
        split at h
        · next us hus =>
          obtain ⟨rfl, rfl⟩ := Prod.mk.inj (Option.some.inj h)
          have hf := (digitValues_iff b hb (c :: cs) us).1 hus
          refine ⟨?_, rfl, hf⟩
          rintro rfl
          cases hf
        · simp at h
      · rintro ⟨-, rfl, hf⟩
        simp [(digitValues_iff base hb (c :: cs) vs).2 hf]
  by_cases hp : HasPrefix t
  · rw [core 16 _ (.inr rfl) (splitPrefix_of_hasPrefix hp)]
    simp [Spells, hp]
  · rw [core 10 _ (.inl rfl) (splitPrefix_of_not_hasPrefix hp)]
    simp [Spells, hp]

theorem literal_eq_none_iff (t : List Byte) : literal t = none ↔ ¬ ∃ base vs, Spells t base vs := by
  constructor
  · rintro h ⟨base, vs, hs⟩
    rw [(literal_iff t base vs).2 hs] at h
    cases h
  · intro h
    cases hl : literal t with
    | none => rfl
    | some p => exact absurd ⟨p.1, p.2, (literal_iff t p.1 p.2).1 hl⟩ h

/-! ## Emitting -/

theorem digitChar_eq_charOf (d : Nat) (h : d < 16) : digitChar d = charOf d := by
  interval_cases d <;> rfl

/-- Enough fuel gives all the digits, most significant first. -/
theorem digitsOf_eq (base : Nat) (hb : 2 ≤ base) (fuel x : Nat) (hx : x < base ^ fuel) (h0 : 0 < fuel) :
    digitsOf base fuel x = if x = 0 then [0] else (Nat.digits base x).reverse := by
  induction fuel generalizing x with
  | zero => omega
  | succ fuel ih =>
    unfold digitsOf
    by_cases hlt : x < base
    · rw [if_pos hlt]
      by_cases hx0 : x = 0
      · simp [hx0]
      · simp [hx0, Nat.digits_of_lt base x hx0 hlt]
    · have hle : base ≤ x := Nat.le_of_not_lt hlt
      have hq : x / base < base ^ fuel := by
        rw [Nat.div_lt_iff_lt_mul (by omega)]
        simpa [pow_succ] using hx
      have hq0 : x / base ≠ 0 := Nat.ne_of_gt (Nat.div_pos hle (by omega))
      have hf : 0 < fuel := by
        rcases Nat.eq_zero_or_pos fuel with rfl | h
        · simp at hq
          omega
        · exact h
      have hx0 : x ≠ 0 := by omega
      rw [if_neg hlt, ih _ hq hf, if_neg hq0, if_neg hx0, Nat.digits_def' (by omega) (by omega : 0 < x)]
      simp

/-- FMTD and FMTH emit the canonical digits of any value of at most `bits` bits (44_literal.md R202, R203). -/
theorem map_digitChar_eq (base bits x : Nat) (hb : 2 ≤ base) (hb' : base ≤ 16) (hbits : 0 < bits) (hx : x < 2 ^ bits) :
    (digitsOf base bits x).map digitChar = canonicalDigits base x := by
  have hx' : x < base ^ bits := lt_of_lt_of_le hx (Nat.pow_le_pow_left hb bits)
  rw [digitsOf_eq base hb bits x hx' hbits, canonicalDigits]
  split
  · rfl
  · apply List.map_congr_left
    intro d hd
    exact digitChar_eq_charOf d (lt_of_lt_of_le (Nat.digits_lt_base (by omega) (List.mem_reverse.1 hd)) hb')

theorem State.bits_pos (s : State) : 0 < s.params.bits := lt_of_lt_of_le (by decide) s.params.native_fits

theorem decimalText_eq (s : State) (i : Reg) :
    decimalText s.params.bits (s.r i) = canonicalDigits 10 (s.r i) :=
  map_digitChar_eq 10 _ _ (by decide) (by decide) s.bits_pos (s.r_lt i)

theorem hexText_eq (s : State) (i : Reg) :
    hexText s.params.bits (s.r i) = 0x30#8 :: 0x78#8 :: canonicalDigits 16 (s.r i) := by
  rw [hexText, map_digitChar_eq 16 _ _ (by decide) (by decide) s.bits_pos (s.r_lt i)]

/-- The number of canonical digits of a value below `base^k`, for `k ≥ 1`, is at most `k`. -/
theorem canonicalDigits_length_le (base x k : Nat) (hb : 2 ≤ base) (hk : 0 < k) (hx : x < base ^ k) :
    (canonicalDigits base x).length ≤ k := by
  unfold canonicalDigits
  split
  · exact hk
  · simpa using (Nat.digits_length_le_iff (by omega) x).2 hx

/-! ## Emitted text is a literal (44_literal.md R204) -/

/-- A canonical decimal text spells its value. -/
theorem spells_decimal (x : Nat) : ∃ vs, Spells (canonicalDigits 10 x) 10 vs ∧ digitSum 10 vs = x := by
  have isDigit : ∀ d, d < 10 → IsDigit 10 (charOf d) d := by
    intro d hd
    rw [← digitValue_iff 10 (.inl rfl)]
    revert d
    decide
  have notPrefix : ∀ d, d < 10 → charOf d ≠ 0x78#8 ∧ charOf d ≠ 0x58#8 := by decide
  by_cases h : x = 0
  · refine ⟨[0], ⟨by simp, .inr ⟨?_, rfl, ?_⟩⟩, by simp [digitSum, h]⟩
    · rintro ⟨r, h' | h'⟩ <;> simp [canonicalDigits, h] at h'
    · simpa [canonicalDigits, h] using isDigit 0 (by decide)
  · refine ⟨(Nat.digits 10 x).reverse, ⟨by simp [Nat.digits_eq_nil_iff_eq_zero, h], .inr ⟨?_, rfl, ?_⟩⟩,
      by simp [digitSum, Nat.ofDigits_digits]⟩
    · have hne : ∀ c ∈ canonicalDigits 10 x, c ≠ 0x78#8 ∧ c ≠ 0x58#8 := by
        intro c hc
        simp only [canonicalDigits, h, if_false, List.mem_map, List.mem_reverse] at hc
        obtain ⟨d, hd, rfl⟩ := hc
        exact notPrefix d (Nat.digits_lt_base (by decide) hd)
      rintro ⟨r, h' | h'⟩
      · exact (hne 0x78#8 (by rw [h']; simp)).1 rfl
      · exact (hne 0x58#8 (by rw [h']; simp)).2 rfl
    · simp only [canonicalDigits, h, if_false]
      rw [List.forall₂_map_left_iff, List.forall₂_same]
      exact fun d hd => isDigit d (Nat.digits_lt_base (by decide) (List.mem_reverse.1 hd))

/-- `0x` and the canonical hexadecimal digits spell the value. -/
theorem spells_hexadecimal (x : Nat) :
    ∃ vs, Spells (0x30#8 :: 0x78#8 :: canonicalDigits 16 x) 16 vs ∧ digitSum 16 vs = x := by
  have isDigit : ∀ d, d < 16 → IsDigit 16 (charOf d) d := by
    intro d hd
    rw [← digitValue_iff 16 (.inr rfl)]
    revert d
    decide
  by_cases h : x = 0
  · refine ⟨[0], ⟨by simp, .inl ⟨⟨_, .inl rfl⟩, rfl, ?_⟩⟩, by simp [digitSum, h]⟩
    simpa [canonicalDigits, h] using isDigit 0 (by decide)
  · refine ⟨(Nat.digits 16 x).reverse, ⟨by simp [Nat.digits_eq_nil_iff_eq_zero, h], .inl ⟨⟨_, .inl rfl⟩, rfl, ?_⟩⟩,
      by simp [digitSum, Nat.ofDigits_digits]⟩
    simp only [canonicalDigits, h, if_false, List.drop]
    rw [List.forall₂_map_left_iff, List.forall₂_same]
    exact fun d hd => isDigit d (Nat.digits_lt_base (by decide) (List.mem_reverse.1 hd))

end Sys2Proof.Machine
end

