-- ==== Sys2Proof/Tests/Slice0.lean ====
section
/-! SUPPORT. Tests. Every expected value is one of the spec's vectors (95_test_vectors.md), named in the test's comment, or
is worked out by hand from the rule cited; none was read off the model. -/

namespace Sys2Proof.Tests

open Sys2Proof.Machine Sys2Proof.Safety Sys2Proof.Config

/-! ## Helpers -/

/-- The named constants of 95_test_vectors.md §0. -/
def A : Nat := 0xF4DF741DE58BCB2F37F18372026EF9CBCFC456CB80AF54D53BDEED78410065DE

def B : Nat := 0x0123456789ABCDEF0123456789ABCDEF0123456789ABCDEF0123456789ABCDEF

def N : Nat := 87176242072037071907086802804548085162415187458629769502010888229665333728499

def MAX : Nat := 2 ^ 256 - 1

/-- The state after reset with some registers written. -/
def start (rs : List (Reg × Nat)) : State := rs.foldl (fun s p => s.writeReg p.1 p.2) State.reset

/-- `start` with a text loaded. -/
def withText (t : List Char) (s : State) : State := s.setTxt (ascii t)

/-- `start` with a STATUS. -/
def withStatus (st : Status) (s : State) : State := { s with status := st }

/-- What `f` shows of the state after a step, with the response and STATUS; none if there is no next state. -/
def seen {α : Type} (f : State → α) (o : Outcome) : Option (α × Option Response × BitVec 32) :=
  match o with
  | .next t => some (f t, t.response, t.status.word)
  | .fault _ => none
  | .refused _ => none

/-- One step that performs an H_CMD. -/
def ran {α : Type} (s : State) (w : Nat) (f : State → α) : Option (α × Option Response × BitVec 32) :=
  seen f (step (s.withFetchWord 32 w))

/-- One step that performs a transaction of the host. -/
def hosted {α : Type} (s : State) (tx : HostTransaction) (f : State → α) : Option (α × Option Response × BitVec 32) :=
  seen f (step { s with pending := [⟨.host, tx⟩] })

/-- STATUS `0x00000101`: DZ set, LAST = 1. -/
def st101 : Status := Status.reset.failed .divisionByZero

/-! ## WellFormed -/

/-- 30_encoding.md R97: an odd MULW destination and equal DIVREM destinations are refused. -/
theorem test_wellFormed_refuses :
    Instr.wellFormed (.mulw 7 1 1) = false ∧ Instr.wellFormed (.divrem 3 3 1 2) = false := by decide

theorem test_wellFormed_admits :
    Instr.wellFormed (.mulw 6 1 0) = true ∧ Instr.wellFormed (.divrem 3 4 1 2) = true ∧
      Instr.wellFormed (.add 1 1 1) = true := by decide

/-! ## Decode: words of 95_test_vectors.md, or by hand from 30_encoding.md R90, R95 -/

theorem test_decode_representation :
    decode 0x01120000 = .command (.mov 1 2) ∧
      decode 0x021003E8 = .command (.ldi 1 1000) := by decide

theorem test_decode_arith :
    decode 0x10312000 = .command (.add 3 1 2) ∧
      decode 0x11432000 = .command (.sub 4 3 2) ∧
      decode 0x12312000 = .command (.mul 3 1 2) ∧
      decode 0x13612000 = .command (.mulw 6 1 2) ∧
      decode 0x14615000 = .command (.div 6 1 5) ∧
      decode 0x15412000 = .command (.rem 4 1 2) ∧
      decode 0x16312400 = .command (.divrem 3 4 1 2) := by decide

theorem test_decode_bitwise :
    decode 0x20312000 = .command (.and 3 1 2) ∧
      decode 0x21312000 = .command (.or 3 1 2) ∧
      decode 0x22551000 = .command (.xor 5 5 1) ∧
      decode 0x23210000 = .command (.not 2 1) ∧
      decode 0x24312000 = .command (.shl 3 1 2) ∧
      decode 0x25312000 = .command (.shr 3 1 2) ∧
      decode 0x26210043 = .command (.shli 2 1 67) ∧
      decode 0x2731004F = .command (.shri 3 1 79) ∧
      decode 0x2621FFFF = .command (.shli 2 1 0xFFFF) := by decide

theorem test_decode_compare :
    decode 0x30021000 = .command (.cmp 2 1) ∧
      decode 0x3105FFFF = .command (.cmpi 5 0xFFFF) ∧
      decode 0x32968000 = .command (.seq 9 6 8) ∧
      decode 0x33312000 = .command (.sne 3 1 2) ∧
      decode 0x34534000 = .command (.slt 5 3 4) ∧
      decode 0x35312000 = .command (.sle 3 1 2) ∧
      decode 0x36312000 = .command (.sgt 3 1 2) ∧
      decode 0x37312000 = .command (.sge 3 1 2) := by decide

theorem test_decode_rest :
    decode 0x40800000 = .command (.parse 8) ∧
      decode 0x41030000 = .command (.fmtd 3) ∧
      decode 0x42030000 = .command (.fmth 3) ∧
      decode 0x50524100 = .command (.modpow 5 2 4 1) ∧
      decode 0x60010000 = .command (.seed 1) ∧
      decode 0x61200000 = .command (.rand 2) ∧
      decode 0x62712000 = .command (.urand 7 1 2) ∧
      decode 0x70000000 = .command .clrst := by decide

/-- V-ENC-1 to V-ENC-5. -/
theorem test_decode_illegal_words :
    decode 0x00000000 = .illegal .unassignedOpcode ∧ decode 0xFF000000 = .illegal .unassignedOpcode ∧
      decode 0x17000000 = .illegal .unassignedOpcode ∧ decode 0x10312001 = .illegal .nonzeroZeroField ∧
      decode 0x10312100 = .illegal .nonzeroZeroField := by decide

/-- V-ENC-6 to V-ENC-11, V-REP-7. -/
theorem test_decode_illegal_operands :
    decode 0x13711000 = .illegal .mulwOddDestination ∧ decode 0x16312300 = .illegal .divremSameDestination ∧
      decode 0x30141000 = .illegal .nonzeroZeroField ∧ decode 0x31150001 = .illegal .nonzeroZeroField ∧
      decode 0x70000001 = .illegal .nonzeroZeroField ∧ decode 0x40110000 = .illegal .nonzeroZeroField ∧
      decode 0x02110005 = .illegal .nonzeroZeroField := by decide

/-- 30_encoding.md R95: the words of the P-programs, from their commands. -/
theorem test_encode :
    encode (.divrem 1 2 1 2) = 0x16112200 ∧ encode (.ldi 10 1) = 0x02A00001 ∧ encode (.sub 11 1 10) = 0x11B1A000 ∧
      encode (.cmp 4 1) = 0x30041000 ∧ encode (.fmtd 3) = 0x41030000 ∧ encode (.rand 3) = 0x61300000 ∧
      encode (.cmpi 5 1) = 0x31050001 ∧ encode .clrst = 0x70000000 := by decide

/-- V-ENC-1: an illegal word responds 3 with STATUS `0x00000304`, and writes no register. -/
theorem test_step_illegal : ran (start [(1, 5)]) 0x00000000 (fun t => t.r 1) = some (5, some (.code 3), 0x304) := by
  decide

/-! ## Commands, one step each -/

/-- V-REP-5. -/
theorem test_mov :
    ran (start [(2, 5)]) 0x01120000 (fun t => (t.r 1, t.r 2)) =
      some ((5, 5), some (.code 0), 0x0) := by
  decide

/-- V-REP-6. -/
theorem test_mov_self :
    ran (start [(3, 77)]) 0x01330000 (fun t => t.r 3) =
      some (77, some (.code 0), 0x0) := by
  decide

/-- V-REP-2. -/
theorem test_ldi_unsigned :
    ran (start []) 0x0210FFFF (fun t => t.r 1) =
      some (65535, some (.code 0), 0x0) := by
  decide

/-- V-REP-7. -/
theorem test_ldi_zero_field :
    ran (start [(1, 9)]) 0x02110005 (fun t => t.r 1) =
      some (9, some (.code 3), 0x304) := by
  decide

/-- V-SRC-3. -/
theorem test_add_wraps :
    ran (start [(1, MAX), (2, 1)]) 0x10312000 (fun t => t.r 3) =
      some (0, some (.code 0), 0x0) := by
  decide

/-- V-ARI-24. -/
theorem test_add_in_place :
    ran (start [(1, 5)]) 0x10111000 (fun t => t.r 1) =
      some (10, some (.code 0), 0x0) := by
  decide

/-- V-ARI-6. -/
theorem test_sub :
    ran (start [(1, A), (2, B)]) 0x11312000 (fun t => t.r 3) =
      some (0xF3BC2EB65BDFFD4036CE3E0A78C32BDCCEA11163F70386E63ABBA810B75497EF, some (.code 0), 0x0) := by
  decide

/-- V-ARI-7. -/
theorem test_sub_wraps :
    ran (start [(1, A), (2, B)]) 0x11321000 (fun t => t.r 3) =
      some (0xC43D149A42002BFC931C1F5873CD423315EEE9C08FC7919C54457EF48AB6811, some (.code 0), 0x0) := by
  decide

/-- V-ARI-10. -/
theorem test_mul :
    ran (start [(1, A), (2, B)]) 0x12312000 (fun t => t.r 3) =
      some (0x5FB51623C84BC9F6439C87B0866749BCFBC3E44F48B8F79F715D736BDA3BE042, some (.code 0), 0x0) := by
  decide

/-- V-ARI-9. -/
theorem test_mul_max :
    ran (start [(1, MAX)]) 0x12211000 (fun t => t.r 2) =
      some (1, some (.code 0), 0x0) := by
  decide

/-- V-ARI-11. -/
theorem test_mulw :
    ran (start [(1, A), (2, B)]) 0x13612000 (fun t => (t.r 6, t.r 7)) =
      some ((0x5FB51623C84BC9F6439C87B0866749BCFBC3E44F48B8F79F715D736BDA3BE042,
        0x1169C6441DFA0301D2F2AD783C420696507CE38C1727286EF6E3F1C2FEF89E4), some (.code 0), 0x0) := by
  decide

/-- V-ENC-6. -/
theorem test_mulw_odd :
    ran (start [(1, 3), (7, 5)]) 0x13711000 (fun t => (t.r 7, t.r 8)) =
      some ((5, 0), some (.code 3), 0x304) := by
  decide

/-- V-ARI-14. -/
theorem test_div_by_zero :
    ran (start [(1, 1000), (6, 99)]) 0x14615000 (fun t => t.r 6) =
      some (99, some (.code 1), 0x101) := by
  decide

/-- V-ARI-15. -/
theorem test_div :
    ran (start [(1, 1000), (2, 7)]) 0x14312000 (fun t => t.r 3) =
      some (142, some (.code 0), 0x0) := by
  decide

/-- V-ARI-16. -/
theorem test_rem :
    ran (start [(1, 1000), (2, 7)]) 0x15412000 (fun t => t.r 4) =
      some (6, some (.code 0), 0x0) := by
  decide

/-- 41_arith.md R139. -/
theorem test_rem_by_zero :
    ran (start [(1, 1000), (4, 22)]) 0x15412000 (fun t => t.r 4) =
      some (22, some (.code 1), 0x101) := by
  decide

/-- V-ARI-22. -/
theorem test_divrem_old_values :
    ran (start [(1, 17), (2, 5)]) 0x16112200 (fun t => (t.r 1, t.r 2)) =
      some ((3, 2), some (.code 0), 0x0) := by
  decide

/-- V-ARI-23. -/
theorem test_divrem_by_zero :
    ran (start [(1, 8), (3, 11), (4, 22)]) 0x16312400 (fun t => (t.r 3, t.r 4)) =
      some ((11, 22), some (.code 1), 0x101) := by
  decide

/-- V-BIT-1. -/
theorem test_and :
    ran (start [(1, A), (2, B)]) 0x20312000 (fun t => t.r 3) =
      some (0x34405818BC92F01210162002AC9CB0100444380AB44C501024560010045CE, some (.code 0), 0x0) := by
  decide

/-- V-BIT-2. -/
theorem test_or :
    ran (start [(1, A), (2, B)]) 0x21312000 (fun t => t.r 3) =
      some (0xF5FF757FEDABCFEF37F3C7778BEFFDEFCFE757EF89AFDDFF3BFFED7FC9ABEDFF, some (.code 0), 0x0) := by
  decide

/-- V-BIT-3. -/
theorem test_xor :
    ran (start [(1, A), (2, B)]) 0x22312000 (fun t => t.r 3) =
      some (0xF5FC317A6C2006C036D2C6158BC53424CEE713AC0904993A3AFDA81FC8ABA831, some (.code 0), 0x0) := by
  decide

/-- V-BIT-4. -/
theorem test_not :
    ran (start [(1, A)]) 0x23210000 (fun t => t.r 2) =
      some (0xB208BE21A7434D0C80E7C8DFD910634303BA9347F50AB2AC4211287BEFF9A21, some (.code 0), 0x0) := by
  decide

/-- V-BIT-15. -/
theorem test_shl :
    ran (start [(1, 1), (2, 255)]) 0x24312000 (fun t => t.r 3) =
      some (2 ^ 255, some (.code 0), 0x0) := by
  decide

/-- V-BIT-16. -/
theorem test_shl_in_place :
    ran (start [(1, 3)]) 0x24111000 (fun t => t.r 1) =
      some (24, some (.code 0), 0x0) := by
  decide

/-- V-BIT-14. -/
theorem test_shr_full_count :
    ran (start [(1, A), (2, 2 ^ 200)]) 0x25312000 (fun t => t.r 3) =
      some (0, some (.code 0), 0x0) := by
  decide

/-- V-BIT-17. -/
theorem test_shr :
    ran (start [(1, MAX), (2, 255)]) 0x25312000 (fun t => t.r 3) =
      some (1, some (.code 0), 0x0) := by
  decide

/-- V-SRC-1. -/
theorem test_shli :
    ran (start [(1, A)]) 0x26210043 (fun t => t.r 2) =
      some (0xBF8C1B901377CE5E7E22B65C057AA6A9DEF76BC208032EF00000000000000000, some (.code 0), 0x0) := by
  decide

/-- V-BIT-13. -/
theorem test_shli_width :
    ran (start [(1, A)]) 0x26210100 (fun t => t.r 2) =
      some (0, some (.code 0), 0x0) := by
  decide

/-- V-SRC-2. -/
theorem test_shri :
    ran (start [(1, A)]) 0x2731004F (fun t => t.r 3) =
      some (0x1E9BEE83BCB17965E6FE306E404DDF3979F88AD97015E, some (.code 0), 0x0) := by
  decide

/-- V-BIT-18. -/
theorem test_shri_zero :
    ran (start [(1, A)]) 0x27210000 (fun t => t.r 2) =
      some (A, some (.code 0), 0x0) := by
  decide

/-- V-CMP-1. -/
theorem test_cmp_less :
    ran (start [(1, 1), (2, 2)]) 0x30012000 (fun t => t.r 1) =
      some (1, some (.code 0), 0x10) := by
  decide

/-- V-CMP-4. -/
theorem test_cmp_greater :
    ran (start [(1, 2 ^ 32), (2, 0xFFFFFFFF)]) 0x30012000 (fun t => t.r 1) =
      some (2 ^ 32, some (.code 0), 0x20) := by
  decide

/-- V-CMP-6. -/
theorem test_cmpi :
    ran (start [(5, 65536)]) 0x3105FFFF (fun t => t.r 5) =
      some (65536, some (.code 0), 0x20) := by
  decide

/-- V-CMP-5. -/
theorem test_cmpi_equal :
    ran (start [(5, 1)]) 0x31050001 (fun t => t.r 5) =
      some (1, some (.code 0), 0x0) := by
  decide

/-- V-CMP-17. -/
theorem test_seq_keeps_cmp :
    ran (withStatus (Status.reset.setCmp .lt) (start [(1, 7), (2, 7)])) 0x32312000 (fun t => t.r 3) =
      some (1, some (.code 0), 0x10) := by
  decide

/-- V-CMP-11. -/
theorem test_sne :
    ran (start [(1, 7), (2, 8)]) 0x33312000 (fun t => t.r 3) =
      some (1, some (.code 0), 0x0) := by
  decide

/-- V-CMP-12. -/
theorem test_slt :
    ran (start [(1, 0), (2, MAX)]) 0x34312000 (fun t => t.r 3) =
      some (1, some (.code 0), 0x0) := by
  decide

/-- V-CMP-13. -/
theorem test_slt_unsigned :
    ran (start [(1, MAX), (3, 9)]) 0x34312000 (fun t => t.r 3) =
      some (0, some (.code 0), 0x0) := by
  decide

/-- V-CMP-14. -/
theorem test_sle :
    ran (start [(1, 7), (2, 7)]) 0x35312000 (fun t => t.r 3) =
      some (1, some (.code 0), 0x0) := by
  decide

/-- V-CMP-15. -/
theorem test_sgt :
    ran (start [(1, MAX), (2, 0)]) 0x36312000 (fun t => t.r 3) =
      some (1, some (.code 0), 0x0) := by
  decide

/-- V-CMP-16. -/
theorem test_sge :
    ran (start [(1, 0), (2, MAX), (3, 9)]) 0x37312000 (fun t => t.r 3) =
      some (0, some (.code 0), 0x0) := by
  decide

/-- V-LIT-2. -/
theorem test_parse_prefix_only :
    ran (withText ['0', 'x'] (start [(1, 0x99)])) 0x40100000 (fun t => t.r 1) =
      some (0x99, some (.code 2), 0x202) := by
  decide

/-- V-LIT-3. -/
theorem test_parse_hex :
    ran (withText ['0', 'X', '1', 'f'] (start [(1, 0x99)])) 0x40100000 (fun t => t.r 1) =
      some (31, some (.code 0), 0x0) := by
  decide

/-- V-LIT-6. -/
theorem test_parse_zeros :
    ran (withText ['0', 'x', '0', '0', 'F', 'F'] (start [(1, 0x99)])) 0x40100000 (fun t => t.r 1) =
      some (255, some (.code 0), 0x0) := by
  decide

set_option maxRecDepth 4000 in
/-- V-LIT-16. -/
theorem test_parse_truncates :
    ran (withText (['0', 'x', '1'] ++ List.replicate 64 '0') (start [(1, 0x99)])) 0x40100000 (fun t => t.r 1) =
      some (0, some (.code 0), 0x0) := by
  decide

/-- V-LIT-12. -/
theorem test_parse_bad_digit :
    ran (withText ['1', '2', 'a'] (start [(1, 0x99)])) 0x40100000 (fun t => t.r 1) =
      some (0x99, some (.code 2), 0x202) := by
  decide

/-- V-LIT-27. -/
theorem test_fmtd :
    ran (start [(1, 1000)]) 0x41010000 (fun t => (t.txt, t.txtLen)) =
      some ((ascii ['1', '0', '0', '0'], 4), some (.code 0), 0x0) := by
  decide

/-- V-LIT-23. -/
theorem test_fmtd_zero :
    ran (start [(1, 0)]) 0x41010000 (fun t => (t.txt, t.txtLen)) =
      some ((ascii ['0'], 1), some (.code 0), 0x0) := by
  decide

/-- V-LIT-25. -/
theorem test_fmth :
    ran (start [(1, 255)]) 0x42010000 (fun t => t.txt) =
      some (ascii ['0', 'x', 'F', 'F'], some (.code 0), 0x0) := by
  decide

/-- V-LIT-23. -/
theorem test_fmth_zero :
    ran (start [(1, 0)]) 0x42010000 (fun t => (t.txt, t.txtLen)) =
      some ((ascii ['0', 'x', '0'], 3), some (.code 0), 0x0) := by
  decide

/-- V-MOD-6. -/
theorem test_modpow_exact :
    ran (start [(2, MAX - 1), (4, 2), (1, MAX)]) 0x50524100 (fun t => t.r 5) =
      some (1, some (.code 0), 0x0) := by
  decide

/-- V-MOD-13. -/
theorem test_modpow_zero_modulus :
    ran (start [(2, 3), (4, 5), (5, 42)]) 0x50524100 (fun t => t.r 5) =
      some (42, some (.code 1), 0x101) := by
  decide

/-- V-RND-3. -/
theorem test_urand_one_value :
    ran (start [(2, 42), (1, 42)]) 0x62721000 (fun t => t.r 7) =
      some (42, some (.code 0), 0x0) := by
  decide

/-- V-RND-4. -/
theorem test_urand_empty_range :
    ran (start [(1, 5), (2, 3), (7, 8)]) 0x62712000 (fun t => t.r 7) =
      some (8, some (.code 4), 0x408) := by
  decide

/-- V-STS-1. -/
theorem test_clrst :
    ran (withStatus st101 (start [])) 0x70000000 (fun t => t.txtLen) =
      some (0, some (.code 0), 0x0) := by
  decide

/-- V-STS-5. -/
theorem test_clrst_zero_field :
    ran (withStatus st101 (start [])) 0x70000100 (fun t => t.txtLen) =
      some (0, some (.code 3), 0x305) := by
  decide

/-- SEED of 7 leaves `RNG_SEED(7)` in ENG (46_random.md R230). -/
theorem test_seed : ran (start [(1, 7)]) 0x60010000 (fun t => t.eng) = some (rngSeed 256 7, some (.code 0), 0x0) := rfl

/-- RAND completes with response 0 and leaves the other registers (46_random.md R235). -/
theorem test_rand_completes : ran (start [(1, 7)]) 0x61200000 (fun t => t.r 1) = some (7, some (.code 0), 0x0) := by
  decide

/-! ## The sampler on the outputs an engine is assumed to return (95_test_vectors.md §0) -/

/-- An engine that returns the outputs of a list. -/
def outputs (l : List Nat) : List Nat × Nat := (l.tail, l.headD 0)

/-- V-RND-1: the first output is limb 0. -/
theorem test_rand_limb_order :
    candidate outputs 32 8 256 [1, 2, 3, 4, 5, 6, 7, 8] =
      ([], 0x800000007000000060000000500000004000000030000000200000001) := by decide

/-- The parameters of 46_random.md R231 in V-RND-2, V-RND-6, V-RND-9 and V-RND-12. -/
theorem test_urand_parameters :
    (rangeSize 10 12, rangeBits 3, drawsPerCandidate 32 2) = (3, 2, 1) ∧
      (rangeSize 0 (2 ^ 32), rangeBits (2 ^ 32 + 1), drawsPerCandidate 32 33) = (2 ^ 32 + 1, 33, 2) ∧
      (rangeSize 1 MAX, rangeBits MAX, drawsPerCandidate 32 256) = (MAX, 256, 8) ∧
      (rangeSize 0 255, rangeBits 256, drawsPerCandidate 8 8) = (256, 8, 1) := by decide

/-- V-RND-2: `7 mod 4` is rejected, `5 mod 4` accepted. -/
theorem test_urand_rejects : firstAccepted (candidate outputs 32 1 2) 3 9 [7, 5, 6] = some ([6], 1) := by decide

/-- V-RND-6: two draws a candidate, the first rejected. -/
theorem test_urand_two_draws :
    firstAccepted (candidate outputs 32 2 33) (2 ^ 32 + 1) 9 [0x5, 0xFFFFFFFF, 0x10, 0x2, 7] = some ([7], 0x10) := by
  decide

/-- V-RND-9. -/
theorem test_urand_sixteen_draws :
    firstAccepted (candidate outputs 32 8 256) MAX 9 (List.replicate 8 0xFFFFFFFF ++ List.replicate 8 0) =
      some ([], 0) := by decide

/-- V-RND-10: 64-bit limbs. -/
theorem test_urand_wide_limbs :
    firstAccepted (candidate outputs 64 2 65) (2 ^ 64 + 1) 9 [1, 1, 5, 2] = some ([], 5) := by decide

/-! ## The limb-level engines -/

/-- V-ARI-2, V-ARI-5. -/
theorem test_carry_and_borrow :
    adder 32 8 0xFFFFFFFF 1 = 0x100000000 ∧ adder 32 8 MAX 1 = 0 ∧
      subtractor 32 8 (2 ^ 64) 1 = 0xFFFFFFFFFFFFFFFF ∧ subtractor 32 8 0 1 = MAX := by decide

set_option maxRecDepth 4000 in
set_option exponentiation.threshold 600 in
/-- V-ARI-10, V-ARI-11. -/
theorem test_multiplier :
    multiplierLow 32 8 A B = 0x5FB51623C84BC9F6439C87B0866749BCFBC3E44F48B8F79F715D736BDA3BE042 ∧
      multiplier 32 8 A B / 2 ^ 256 = 0x1169C6441DFA0301D2F2AD783C420696507CE38C1727286EF6E3F1C2FEF89E4 := by decide

set_option maxRecDepth 20000 in
/-- V-ARI-18. -/
theorem test_divider :
    divider 256 A B = (0xD7, 0x402A294641D7754352397D63250611DB250CD6E165611B473FA383A1B67225) := by decide

/-- V-SRC-1, V-SRC-2, V-BIT-13. -/
theorem test_barrel :
    barrelLeft 32 8 A 67 = 0xBF8C1B901377CE5E7E22B65C057AA6A9DEF76BC208032EF00000000000000000 ∧
      barrelRight 32 8 A 79 = 0x1E9BEE83BCB17965E6FE306E404DDF3979F88AD97015E ∧ barrelLeft 32 8 A 256 = 0 := by decide

/-- V-BIT-3, V-CMP-4, V-CMP-3. -/
theorem test_limbwise_and_order :
    limbwise (· ^^^ ·) 32 8 A B = 0xF5FC317A6C2006C036D2C6158BC53424CEE713AC0904993A3AFDA81FC8ABA831 ∧
      limbOrder 32 (2 ^ 32) 0xFFFFFFFF 8 = .gt ∧ limbOrder 32 MAX MAX 8 = .eq := by decide

/-- V-MOD-1: 4 squarings and 3 multiplies. -/
theorem test_sequencer :
    powMod 4 13 497 = 445 ∧ (powOps 13 (bitlen 13)).count .square = 4 ∧
      (powOps 13 (bitlen 13)).count .multiply = 3 := by decide

set_option maxRecDepth 20000 in
/-- V-MOD-2. -/
theorem test_sequencer_fermat : powMod 2 (N - 1) N = 1 := by decide

/-! ## Host transactions -/

/-- V-HST-1, V-HST-2. -/
theorem test_host_reads_limbs :
    (hosted (start [(1, A)]) (.hRlimb 1 3) fun t => t.r 1) = some (A, some (.limb 0xCFC456CB), 0x0) ∧
      (hosted (start [(1, A)]) (.hRlimb 1 8) fun t => t.r 1) = some (A, some .refused, 0x0) := by decide

/-- V-HST-3, V-HST-4. -/
theorem test_host_writes_limbs :
    (hosted (start [(1, 0)]) (.hWlimb 1 1 1) fun t => t.r 1) = some (2 ^ 32, some .done, 0x0) ∧
      (hosted (start [(1, MAX)]) (.hWlimb 1 0 0) fun t => t.r 1) = some (MAX - 0xFFFFFFFF, some .done, 0x0) := by decide

/-- V-REP-3, V-REP-4. -/
theorem test_host_writes_natives :
    (hosted (start []) (.hWnat 1 0xFFFFFFFFFFFFFFFF) fun t => t.r 1) = some (2 ^ 64 - 1, some .done, 0x0) ∧
      (hosted (start []) (.hWnat 1 0x8000000000000000) fun t => t.r 1) = some (2 ^ 63, some .done, 0x0) := by decide

set_option maxRecDepth 4000 in
/-- V-HST-5. -/
theorem test_host_text_too_long :
    (hosted (withText ['1', '2'] (start [])) (.hWtxt (List.replicate 79 0x30#8)) fun t => (t.txt, t.txtLen)) =
      some ((ascii ['1', '2'], 2), some .refused, 0x0) := by decide

/-- 20_memory.md R65, R66. -/
theorem test_host_text :
    (hosted (start []) (.hWtxt [0x30#8, 0x78#8]) fun t => t.txt) = some ([0x30#8, 0x78#8], some .done, 0x0) ∧
      (hosted (withText ['7'] (start [])) .hRtxt fun t => t.txt) = some ([0x37#8], some (.text [0x37#8]), 0x0) := by
  decide

/-- V-HST-6, and 20_memory.md R61, R62. -/
theorem test_host_status_and_registers :
    (hosted (withStatus st101 (start [])) .hRstatus fun t => t.status) = some (st101, some (.status 0x101), 0x101) ∧
      (hosted (start [(3, B)]) (.hRreg 3) fun t => t.r 3) = some (B, some (.value B), 0x0) ∧
      (hosted (start []) (.hWreg 15 MAX) fun t => (t.r 15, t.r 14)) = some ((MAX, 0), some .done, 0x0) := by decide

/-- V-HST-7, also while a command runs (70_reset_and_hazards.md R293). -/
theorem test_host_reset :
    (hosted (withText ['1'] (withStatus st101 (start [(1, A)]))) .hReset fun t => (t.r 1, t.txtLen)) =
        some ((0, 0), some .done, 0x0) ∧
      (hosted (withText ['1'] (withStatus st101 (start [(1, A)]))) (.hCmdAbandoned 0x50524100) fun t =>
        (t.r 1, t.txtLen)) = some ((0, 0), some .done, 0x0) := by decide

/-- H_RESET restores the engine (V-HST-7). -/
theorem test_host_reset_engine (e : EngineState) :
    (match step { State.reset with eng := e, pending := [⟨.host, .hReset⟩] } with
      | .next t => some t.eng
      | .fault _ => none
      | .refused _ => none) = some (rngSeed 256 (rngDefaultSeed 256)) := rfl

/-- 60_exceptions.md R275, R277. -/
theorem test_second_host_and_idle :
    step { State.reset with pending := [⟨.other, .hReset⟩] } = .refused .secondHost ∧
      step State.reset = .next State.reset := ⟨rfl, rfl⟩

/-! ## Other instances -/

/-- The narrowest instance of 00_scope.md R10: one 64-bit limb. -/
def narrow : Params where
  bits := 64
  limbW := .w64
  txtCap := 20
  limbs_fill := by decide
  native_fits := by decide
  decimal_fits := by decide
  hex_fits := by decide

/-- 41_arith.md R131 at `BITS = 64`: `2^64 − 1 + 1` wraps to 0. -/
theorem test_narrow_add :
    (seen (fun t => t.r 3) (exec (.add 3 1 2) (((State.resetFor narrow).writeReg 1 (2 ^ 64 - 1)).writeReg 2 1))) =
      some (0, none, 0x0) := by decide

/-! ## The assembler -/

/-- 95_test_vectors.md P7: the expansion of `LI r1, r15, 65658281052`. -/
theorem test_assemble_li :
    (Pseudo.expand (.li 1 15 65658281052)).map encode =
      [0x0210000F, 0x26110010, 0x02F04989, 0x2111F000, 0x26110010, 0x02F0DC5C, 0x2111F000] := by decide

/-- 30_encoding.md R101: case, spaces, a comment, a hexadecimal number, and an immediate that is too large. -/
theorem test_assemble_lines :
    assembleLine 256 (ascii ['s', 'h', 'l', 'i', ' ', 'r', '2', ',', ' ', 'r', '1', ',', '6', '7', ' ', ';', 'x']) =
        some [.shli 2 1 67] ∧
      assembleLine 256 (ascii ['L', 'D', 'I', ' ', 'r', '1', '5', ',', ' ', '0', 'x', 'F', 'f']) =
        some [.ldi 15 255] ∧
      assembleLine 256 (ascii ['L', 'D', 'I', ' ', 'r', '1', ',', '6', '5', '5', '3', '6']) = none := by decide

/-- The choice of log 20: an ill-formed DIVREM and MULW assemble to the illegal words of V-ENC-7 and V-ENC-6. -/
theorem test_assemble_ill_formed :
    (assembleLine 256 (ascii ['D', 'I', 'V', 'R', 'E', 'M', ' ', 'r', '3', ',', 'r', '3', ',', 'r', '1', ',', 'r', '2'])).map
        (List.map encode) = some [0x16312300] ∧
      (assembleLine 256 (ascii ['M', 'U', 'L', 'W', ' ', 'r', '7', ',', 'r', '1', ',', 'r', '1'])).map
        (List.map encode) = some [0x13711000] := by decide

/-- 30_encoding.md R102: `rt` must differ from `rd`. -/
theorem test_assemble_pseudo :
    assembleLine 256 (ascii ['I', 'N', 'C', ' ', 'r', '1', ',', 'r', '2']) = some [.ldi 2 1, .add 1 1 2] ∧
      assembleLine 256 (ascii ['I', 'N', 'C', ' ', 'r', '1', ',', 'r', '1']) = none := by decide

/-! ## Witnesses: the hypotheses of each obligation are met together -/

/-- The transaction list of a witness. -/
def issued (tx : HostTransaction) (s : State) : State := { s with pending := [⟨.host, tx⟩] }

/-- HostResetOverwritesEverything, both transactions. -/
theorem witness_HostReset :
    (∃ s : State, s.pending = [⟨.host, .hReset⟩] ∧ s.r 1 = A) ∧
      ∃ (s : State) (w : CommandWord), s.pending = [⟨.host, .hCmdAbandoned w⟩] ∧ s.r 1 = A :=
  ⟨⟨issued .hReset (start [(1, A)]), rfl, by decide⟩,
    ⟨issued (.hCmdAbandoned 0x61200000) (start [(1, A)]), _, rfl, by decide⟩⟩

/-- StepPerformsTheDecodedCommand. -/
theorem witness_StepPerforms :
    ∃ (s : State) (w : CommandWord) (i : Instr), s.pending = [⟨.host, .hCmd w⟩] ∧ decode w = .command i ∧
      ∃ t, exec i { s with pending := [] } = .next t :=
  ⟨issued (.hCmd 0x10312000) (start [(1, MAX), (2, 1)]), 0x10312000, .add 3 1 2, rfl, by decide, _, rfl⟩

/-- StepRaisesIllegalCommand. -/
theorem witness_StepRaises :
    ∃ (s : State) (w : CommandWord) (why : DecodeFault),
      s.pending = [⟨.host, .hCmd w⟩] ∧ decode w = .illegal why :=
  ⟨issued (.hCmd 0x13711000) State.reset, 0x13711000, .mulwOddDestination, rfl, by decide⟩

/-- StepsOutsideTheOneHostsTransactions, each clause, the payloads at the first value too wide. -/
theorem witness_StepsOutside :
    (∃ s : State, s.pending = [⟨.other, .hReset⟩]) ∧ (∃ s : State, s.pending = []) ∧
      (∃ (s : State) (v : Nat), s.pending = [⟨.host, .hWreg 0 v⟩] ∧ 2 ^ s.params.bits ≤ v) ∧
      ∃ (s : State) (x : Nat), s.pending = [⟨.host, .hWlimb 0 7 x⟩] ∧ 2 ^ s.params.limbW.bits ≤ x :=
  ⟨⟨{ State.reset with pending := [⟨.other, .hReset⟩] }, rfl⟩, ⟨State.reset, rfl⟩,
    ⟨issued (.hWreg 0 (2 ^ 256)) State.reset, 2 ^ 256, rfl, by decide⟩,
    ⟨issued (.hWlimb 0 7 (2 ^ 32)) State.reset, 2 ^ 32, rfl, by decide⟩⟩

/-- StepTakesTheOldestTransaction, with a list of two. -/
theorem witness_StepTakesTheOldest :
    ∃ s t req rest, s.pending = req :: rest ∧ rest ≠ [] ∧ step s = .next t :=
  ⟨{ State.reset with pending := [⟨.host, .hCmd 0x70000000⟩, ⟨.host, .hRtxt⟩] }, _, _, _, rfl, by decide, rfl⟩

/-- HostReadsReturnStateUnchanged, each clause. -/
theorem witness_HostReads :
    (∃ s : State, s.pending = [⟨.host, .hRreg 15⟩] ∧ s.r 15 = MAX) ∧
      (∃ s : State, s.pending = [⟨.host, .hRtxt⟩] ∧ s.txt = [0x37#8]) ∧
      ∃ s : State, s.pending = [⟨.host, .hRstatus⟩] ∧ s.status.word = 0x101 :=
  ⟨⟨issued (.hRreg 15) (start [(15, MAX)]), rfl, by decide⟩,
    ⟨issued .hRtxt (withText ['7'] State.reset), rfl, by decide⟩,
    ⟨issued .hRstatus (withStatus st101 State.reset), rfl, by decide⟩⟩

/-- HostWritesOneRegister: the largest value H_WREG admits, and the largest native pattern. -/
theorem witness_HostWrites :
    (∃ (s : State) (v : Nat), s.pending = [⟨.host, .hWreg 3 v⟩] ∧ v < 2 ^ s.params.bits ∧ v = MAX) ∧
      ∃ (s : State) (n : BitVec 64) (v : Nat), s.pending = [⟨.host, .hWnat 3 n⟩] ∧ v = n.toNat ∧ v = 2 ^ 64 - 1 :=
  ⟨⟨issued (.hWreg 3 MAX) State.reset, _, rfl, by decide, rfl⟩,
    ⟨issued (.hWnat 3 0xFFFFFFFFFFFFFFFF) State.reset, _, _, rfl, rfl, by decide⟩⟩

/-- LimbAccessReachesOneLimb: the last limb, the first index beyond it, the largest limb value, and another limb. -/
theorem witness_LimbAccess :
    (∃ (s : State) (j x : Nat), s.pending = [⟨.host, .hWlimb 1 j x⟩] ∧ x < 2 ^ s.params.limbW.bits ∧
        j < s.params.nlimb ∧ x + 1 = 2 ^ s.params.limbW.bits ∧ j + 1 = s.params.nlimb) ∧
      (∃ (s : State) (j x : Nat), s.pending = [⟨.host, .hWlimb 1 j x⟩] ∧ x < 2 ^ s.params.limbW.bits ∧
        s.params.nlimb = j) ∧
      (∃ (s : State) (j : Nat), s.pending = [⟨.host, .hRlimb 1 j⟩] ∧ j + 1 = s.params.nlimb) ∧
      ∃ (s : State) (j : Nat), s.pending = [⟨.host, .hRlimb 1 j⟩] ∧ s.params.nlimb = j :=
  ⟨⟨issued (.hWlimb 1 7 0xFFFFFFFF) State.reset, 7, 0xFFFFFFFF, rfl, by decide⟩,
    ⟨issued (.hWlimb 1 8 0) State.reset, 8, 0, rfl, by decide⟩,
    ⟨issued (.hRlimb 1 7) State.reset, 7, rfl, by decide⟩,
    ⟨issued (.hRlimb 1 8) State.reset, 8, rfl, by decide⟩⟩

set_option maxRecDepth 4000 in
/-- HostTextIsStoredOrRefused: a text of TXT_CAP bytes and one of one more. -/
theorem witness_HostText :
    (∃ (s : State) (text : List Byte), s.pending = [⟨.host, .hWtxt text⟩] ∧ text.length = s.params.txtCap) ∧
      ∃ (s : State) (text : List Byte), s.pending = [⟨.host, .hWtxt text⟩] ∧ text.length = s.params.txtCap + 1 :=
  ⟨⟨issued (.hWtxt (List.replicate 78 0x30#8)) State.reset, List.replicate 78 0x30#8, rfl, by decide⟩,
    ⟨issued (.hWtxt (List.replicate 79 0x30#8)) State.reset, List.replicate 79 0x30#8, rfl, by decide⟩⟩

/-- DecodeOfEncode and EncodeOfDecode, on the two commands with a constraint. -/
theorem witness_Encoding :
    Instr.wellFormed (.mulw 14 15 0) = true ∧ Instr.wellFormed (.divrem 0 15 1 2) = true ∧
      decode 0x13EF0000 = .command (.mulw 14 15 0) ∧ decode 0x16012F00 = .command (.divrem 0 15 1 2) := by decide

/-- UnlistedOpcodesAreIllegal, at the ends of ranges. -/
theorem witness_UnlistedOpcodes :
    decode 0x03FFFFFF = .illegal .unassignedOpcode ∧ decode 0x71000000 = .illegal .unassignedOpcode ∧
      decode 0xFF000000 = .illegal .unassignedOpcode := by decide

/-- The hypotheses of `DecodesAs`, both clauses, for a format with zero fields; the I format of SHLI and SHRI has none. -/
theorem witness_DecodesAs :
    (fieldOp 0x10312000 = 0x10 ∧ (0x10312000 : CommandWord) &&& 0x00000FFF = 0) ∧
      (fieldOp 0x10312100 = 0x10 ∧ (0x10312100 : CommandWord) &&& 0x00000FFF ≠ 0) ∧
      (fieldOp 0x2621FFFF = 0x26 ∧ (0x2621FFFF : CommandWord) &&& 0x00000000 = 0) := by decide

/-- MulwWritesTheExactProductToThePair: the words of each clause and the last pair. -/
theorem witness_Mulw :
    (fieldOp 0x13612000 = 0x13 ∧ (0x13612000 : CommandWord) &&& 0x00100FFF = 0) ∧
      (fieldOp 0x13711000 = 0x13 ∧ (0x13711000 : CommandWord) &&& 0x00100FFF ≠ 0) ∧
      (14 : Reg).val % 2 = 0 ∧ (15 : Reg).val % 2 = 1 := by decide

/-- DivAndRemWriteTheirResultOrRaise, DivremWritesQuotientAndRemainder, ModpowWritesTheExactPower: a divisor that is not 0
and one that is. -/
theorem witness_Divisors :
    (start [(1, 1000), (2, 7)]).r 2 ≠ 0 ∧ (start [(1, 1000), (2, 7)]).r 3 = 0 ∧ (3 : Reg) ≠ 4 := by decide

/-- DivremWritesQuotientAndRemainder: the words of each clause. -/
theorem witness_Divrem :
    (fieldOp 0x16312400 = 0x16 ∧ (0x16312400 : CommandWord) &&& 0x000000FF = 0 ∧
        fieldRd 0x16312400 ≠ fieldRc 0x16312400) ∧
      (fieldOp 0x16312401 = 0x16 ∧ (0x16312401 : CommandWord) &&& 0x000000FF ≠ 0) ∧
      (fieldOp 0x16312300 = 0x16 ∧ fieldRd 0x16312300 = fieldRc 0x16312300) := by decide

/-- ArithmeticLawsHold, each clause. -/
theorem witness_ArithmeticLaws :
    (3 : Reg) ≠ 4 ∧ (3 : Reg) ≠ 1 ∧ (3 : Reg) ≠ 2 ∧ (4 : Reg) ≠ 2 ∧ (start [(1, A), (2, B)]).r 2 ≠ 0 := by decide

/-- ShiftLawsHold: the counts BITS, 0 and BITS − 1, and a result register that is not the count's. -/
theorem witness_ShiftLaws :
    State.reset.params.bits ≤ (start [(1, A), (2, 256)]).r 2 ∧ (start [(1, A), (2, 0)]).r 2 = 0 ∧
      (start [(1, A), (2, 255)]).r 2 < State.reset.params.bits ∧ (3 : Reg) ≠ 2 := by decide

/-- ParseReadsTheLiteral, FormatAfterParseIsCanonical: a decimal and a hexadecimal text. -/
theorem witness_Spells :
    Spells (ascii ['0', '0', '7']) 10 [0, 0, 7] ∧ Spells (ascii ['0', 'X', '1', 'f']) 16 [1, 15] := by
  refine ⟨⟨by decide, .inr ⟨?_, rfl, .cons (.decimal (by decide) (by decide))
    (.cons (.decimal (by decide) (by decide)) (.cons (.decimal (by decide) (by decide)) .nil))⟩⟩,
    ⟨by decide, .inl ⟨⟨_, .inr rfl⟩, rfl, .cons (.hexDecimal (by decide) (by decide))
      (.cons (.hexLower (by decide) (by decide)) .nil)⟩⟩⟩
  rintro ⟨r, h | h⟩ <;> simp [ascii] at h

/-- ParseReadsTheLiteral: a text that spells nothing. -/
theorem witness_SpellsNothing : ¬ ∃ base vs, Spells [] base vs := by
  rintro ⟨base, vs, hne, ⟨⟨r, h | h⟩, -⟩ | ⟨-, -, h⟩⟩
  · cases h
  · cases h
  · cases h
    exact hne rfl

/-- ParseOfFormatRoundTrip, SequencerOperationCounts, FormatsWriteCanonicalText: the operands of V-LIT-20 and V-MOD-1. -/
theorem witness_Formats : (start [(1, A)]).r 1 = A ∧ (1 ≤ 13) := by decide

/-- UrandWritesTheFirstAcceptedCandidate, the empty range (V-RND-4). -/
theorem witness_UrandEmptyRange : (start [(1, 5), (2, 3)]).r 2 < (start [(1, 5), (2, 3)]).r 1 := by decide

/-- UrandWritesTheFirstAcceptedCandidate: on the range `[42, 42]` of V-RND-3 the first candidate is accepted on every
engine. -/
theorem witness_UrandAccepts :
    ∃ (s : State) (nb k n : Nat), s.r 2 ≤ s.r 1 ∧ nb = Nat.size (s.r 1 - s.r 2) ∧
      k = (nb + s.params.limbW.bits - 1) / s.params.limbW.bits ∧
      candidateAt s.params k nb s.eng n < s.r 1 - s.r 2 + 1 ∧
      ∀ i, i < n → s.r 1 - s.r 2 + 1 ≤ candidateAt s.params k nb s.eng i := by
  have h : (start [(1, 42), (2, 42)]).r 1 - (start [(1, 42), (2, 42)]).r 2 = 0 := by decide
  refine ⟨start [(1, 42), (2, 42)], 0, 0, 0, by decide, by rw [h]; rfl, by decide, ?_, fun i hi => absurd hi (by omega)⟩
  rw [h]
  simp [candidateAt]

/-- UrandHangsExactlyWhenNothingIsAccepted: the parameters of V-RND-2. -/
theorem witness_UrandHangs :
    ∃ (s : State) (nb k : Nat), nb = Nat.size (s.r 1 - s.r 2) ∧
      k = (nb + s.params.limbW.bits - 1) / s.params.limbW.bits ∧ s.r 1 - s.r 2 + 1 = 3 :=
  ⟨start [(1, 12), (2, 10)], _, _, rfl, rfl, by decide⟩

/-- UrandCompletesOnPowerOfTwoRanges: the range of V-RND-5, `2^32` values. -/
theorem witness_UrandCompletes :
    ∃ s : State, s.r 2 ≤ s.r 1 ∧ s.r 1 - s.r 2 + 1 = 2 ^ 32 := ⟨start [(1, 2 ^ 32 - 1)], by decide, by decide⟩

/-- RandAssemblesNlimbDraws, the full range. -/
theorem witness_RandIsUrand : ∃ s : State, s.r 2 = 0 ∧ s.r 1 = 2 ^ s.params.bits - 1 :=
  ⟨start [(1, MAX)], by decide, by decide⟩

/-- DrawsDependOnEngineAndRangeOnly: two states that differ in a register, and the operands in other registers. -/
theorem witness_Draws :
    ∃ s s' t t' : State, s.params = s'.params ∧ s.eng = s'.eng ∧ s.r 2 = s'.r 4 ∧ s.r 1 = s'.r 3 ∧
      exec (.urand 7 2 1) s = .next t ∧ exec (.urand 8 4 3) s' = .next t' ∧ t.status.last = none ∧ s.r 9 ≠ s'.r 9 :=
  ⟨start [(1, 42), (2, 42)], start [(3, 42), (4, 42), (9, 1)], _, _, rfl, rfl, by decide, by decide, rfl, rfl, rfl,
    by decide⟩

/-- DrawsDependOnEngineAndRangeOnly, the clause of RAND: two states that share no register value. -/
theorem witness_DrawsOfRand :
    ∃ s s' t t' : State, s.params = s'.params ∧ s.eng = s'.eng ∧ exec (.rand 7) s = .next t ∧
      exec (.rand 8) s' = .next t' ∧ ∀ j k, s.r j ≠ s'.r k :=
  ⟨start [], start ((List.finRange 16).map fun i => (i, 1)), _, _, rfl, rfl, rfl, rfl, by decide⟩

/-- FailedCommandsChangeOnlyStatus: a word for each error. -/
theorem witness_Failed :
    (∃ t, step (issued (.hCmd 0x14312000) (start [(1, 5)])) = .next t ∧ t.status.last = some .divisionByZero) ∧
      (∃ t, step (issued (.hCmd 0x40100000) (start [(1, 5)])) = .next t ∧ t.status.last = some .invalidLiteral) ∧
      (∃ t, step (issued (.hCmd 0x00000000) (start [(1, 5)])) = .next t ∧ t.status.last = some .illegalCommand) ∧
      ∃ t, step (issued (.hCmd 0x62312000) (start [(1, 5)])) = .next t ∧ t.status.last = some .invalidRange :=
  ⟨⟨_, rfl, rfl⟩, ⟨_, rfl, rfl⟩, ⟨_, rfl, rfl⟩, ⟨_, rfl, rfl⟩⟩

/-- ErrorsHaveTheirListedCauses: each error of a well-formed command, and the IllegalCommand of an ill-formed one. -/
theorem witness_Errors :
    (∃ s t, exec (.div 3 1 2) s = .next t ∧ t.status.last = some .divisionByZero) ∧
      (∃ s t, exec (.rem 3 1 2) s = .next t ∧ t.status.last = some .divisionByZero) ∧
      (∃ s t, exec (.divrem 3 4 1 2) s = .next t ∧ t.status.last = some .divisionByZero) ∧
      (∃ s t, exec (.modpow 3 1 2 4) s = .next t ∧ t.status.last = some .divisionByZero) ∧
      (∃ s t, exec (.parse 3) s = .next t ∧ t.status.last = some .invalidLiteral) ∧
      (∃ s t, exec (.urand 3 1 2) s = .next t ∧ t.status.last = some .invalidRange) ∧
      ∃ s t, exec (.mulw 3 1 2) s = .next t ∧ t.status.last = some .illegalCommand :=
  ⟨⟨start [(1, 5)], _, rfl, rfl⟩, ⟨start [(1, 5)], _, rfl, rfl⟩, ⟨start [(1, 5)], _, rfl, rfl⟩,
    ⟨start [(1, 5)], _, rfl, rfl⟩, ⟨start [], _, rfl, rfl⟩, ⟨start [(1, 5)], _, rfl, rfl⟩, ⟨start [], _, rfl, rfl⟩⟩

/-- StickyBitsAndCmpPersist, ClrstAloneClearsTheStickyBits: every sticky bit set and CMP greater, before a command that succeeds and one that fails. -/
theorem witness_Sticky :
    ∃ s t u, exec (.add 3 1 2) s = .next t ∧ t.status.last = none ∧ exec (.div 3 1 2) s = .next u ∧
      u.status.last = some .divisionByZero ∧ s.status.word = 0x2F :=
  ⟨withStatus { dz := true, il := true, ic := true, ir := true, cmp := .gt, last := none } State.reset, _, _, rfl, rfl,
    rfl, rfl, by decide⟩

/-- EngineAndTextHaveTheirWriters, EngineIsHiddenFromOtherCommands, OnlyUrandMayNotComplete. -/
theorem witness_OtherCommands :
    ∃ (s t : State) (i : Instr), exec i s = .next t ∧ (∀ ra, i ≠ .seed ra) ∧ (∀ rd, i ≠ .rand rd) ∧
      (∀ rd ra rb, i ≠ .urand rd ra rb) ∧ (∀ ra, i ≠ .fmtd ra) ∧ ∀ ra, i ≠ .fmth ra :=
  ⟨start [(1, A)], _, .add 3 1 2, rfl, nofun, nofun, nofun, nofun, nofun⟩

/-- The instance of the vectors with 64-bit limbs. -/
def wideLimbs : Params where
  bits := 256
  limbW := .w64
  txtCap := 78
  limbs_fill := by decide
  native_fits := by decide
  decimal_fits := by decide
  hex_fits := by decide

/-- ResultsDoNotDependOnTheLimbWidth: two instances that differ in LIMB_W. -/
theorem witness_LimbWidths :
    ∃ s s' t t' : State, s.params.bits = s'.params.bits ∧ s.params.limbW ≠ s'.params.limbW ∧
      (∀ j, s.r j = s'.r j) ∧ s.r 1 = A ∧ s.status = s'.status ∧ s.txt = s'.txt ∧
      exec (.mulw 6 1 1) s = .next t ∧ exec (.mulw 6 1 1) s' = .next t' :=
  ⟨start [(1, A)], (State.resetFor wideLimbs).writeReg 1 A, _, _, rfl, by decide, by decide, by decide, rfl, rfl, rfl,
    rfl⟩

/-- RunsWithoutUrandNeverStop: a list of every kind of transaction. -/
theorem witness_Runs :
    ∃ s : State, s.pending.length = 11 ∧ ∀ req ∈ s.pending, req.issuer = .host ∧
      (∀ w, req.tx = .hCmd w → fieldOp w ≠ 0x62) ∧ (∀ i v, req.tx = .hWreg i v → v < 2 ^ s.params.bits) ∧
      ∀ i j x, req.tx = .hWlimb i j x → x < 2 ^ s.params.limbW.bits := by
  refine ⟨{ State.reset with pending := [.hCmd 0x10312000, .hRreg 1, .hWreg 1 MAX, .hRlimb 1 9, .hWlimb 1 0 5,
    .hWtxt [], .hRtxt, .hRstatus, .hWnat 1 5, .hReset, .hCmdAbandoned 0x62000000].map fun tx => ⟨.host, tx⟩ }, rfl, ?_⟩
  intro req h
  simp only [List.map_cons, List.map_nil, List.mem_cons, List.not_mem_nil, or_false] at h
  rcases h with rfl | rfl | rfl | rfl | rfl | rfl | rfl | rfl | rfl | rfl | rfl <;>
    refine ⟨rfl, ?_, ?_, ?_⟩ <;> intros <;> rename_i h <;> cases h <;> decide

/-- TextFitsIsKeptByEveryStep: FMTD of the largest value, whose text is TXT_CAP bytes. -/
theorem witness_TextFits :
    ∃ s t, TextFits s ∧ step s = .next t ∧ s.r 1 = MAX := by
  refine ⟨issued (.hCmd 0x41010000) (start [(1, MAX)]), _, ?_, rfl, by decide⟩
  exact Nat.zero_le _

/-- The limb-level engines: the largest values of 8 limbs of 32 bits, and a divisor that is not 0. -/
theorem witness_Limbs : MAX < 2 ^ (8 * 32) ∧ MAX < 2 ^ 256 ∧ (7 : Nat) ≠ 0 ∧ 0 < 32 := by decide

/-- PseudoInstructionsGiveTheirResults: a scratch register, and the largest value LI loads. -/
theorem witness_Pseudo : (15 : Reg) ≠ 1 ∧ MAX < 2 ^ State.reset.params.bits := by decide

end Sys2Proof.Tests
end

section
/-! PROOFS. Results of the units A to F do not depend on LIMB_W (00_scope.md R11). Two blocks that look the same to
software are related by `SameView`; each operation over the state keeps the relation, so each command does. -/

namespace Sys2Proof.Machine

/-! ## Two blocks of one width with the same visible state -/

/-- `s` and `s'` have one width BITS and show the same registers, STATUS and TXT. LIMB_W, TXT_CAP, ENG and the host's
side are free. -/
structure SameView (s s' : State) : Prop where
  bits : s.params.bits = s'.params.bits
  reg : ∀ j, s.r j = s'.r j
  status : s.status = s'.status
  txt : s.txt = s'.txt

/-- Both outcomes are next states, and these look the same. -/
def SameNext (o o' : Outcome) : Prop :=
  ∃ t t', o = .next t ∧ o' = .next t' ∧ SameView t t'

/-- Two next states that are outcomes with the same view look the same. -/
theorem SameNext.view {o o' : Outcome} {t t' : State} (h : SameNext o o') (ho : o = .next t) (ho' : o' = .next t') :
    SameView t t' := by
  obtain ⟨u, u', hu, hu', huu'⟩ := h
  cases ho.symm.trans hu
  cases ho'.symm.trans hu'
  exact huu'

/-- A guard that both blocks decide alike sends them into the same branch. -/
theorem SameNext.guard {c c' : Prop} [Decidable c] [Decidable c'] {o₁ o₂ o₁' o₂' : Outcome} (hc : c ↔ c')
    (h₁ : SameNext o₁ o₁') (h₂ : SameNext o₂ o₂') :
    SameNext (if c then o₁ else o₂) (if c' then o₁' else o₂') := by
  by_cases h : c
  · rwa [if_pos h, if_pos (hc.mp h)]
  · rwa [if_neg h, if_neg (mt hc.mpr h)]

namespace SameView

variable {s s' : State}

/-! ## The operations over the state keep the view -/

theorem writeReg (h : SameView s s') (i : Reg) {v v' : Nat} (hv : v = v') :
    SameView (s.writeReg i v) (s'.writeReg i v') where
  bits := h.bits
  reg j := by simp only [State.r_writeReg, h.bits, h.reg, hv]
  status := h.status
  txt := h.txt

theorem writePair (h : SameView s s') (i : Reg) {v v' : Nat} (hv : v = v') :
    SameView (s.writePair i v) (s'.writePair i v') :=
  (h.writeReg i (by rw [h.bits, hv])).writeReg (i + 1) (by rw [h.bits, hv])

theorem setTxt (h : SameView s s') {x x' : List Byte} (hx : x = x') : SameView (s.setTxt x) (s'.setTxt x') where
  bits := h.bits
  reg := h.reg
  status := h.status
  txt := hx

/-- ENG is no part of the view, so the two blocks may be given different engines. -/
theorem setEng (h : SameView s s') (e e' : Config.EngineState) : SameView (s.setEng e) (s'.setEng e') where
  bits := h.bits
  reg := h.reg
  status := h.status
  txt := h.txt

theorem setStatus (h : SameView s s') {st st' : Status} (hst : st = st') :
    SameView { s with status := st } { s' with status := st' } where
  bits := h.bits
  reg := h.reg
  status := hst
  txt := h.txt

/-! ## Ending a command -/

theorem done (h : SameView s s') : SameNext (done s) (done s') :=
  ⟨_, _, rfl, rfl, h.setStatus (congrArg Status.succeeded h.status)⟩

theorem fail (h : SameView s s') (e : ErrorKind) : SameNext (fail e s) (fail e s') :=
  ⟨_, _, rfl, rfl, h.setStatus (congrArg (Status.failed e) h.status)⟩

/-- The shape of most commands: one register is written with a value that both blocks compute alike. -/
theorem done_writeReg (h : SameView s s') (rd : Reg) {v v' : Nat} (hv : v = v') :
    SameNext (Machine.done (s.writeReg rd v)) (Machine.done (s'.writeReg rd v')) :=
  (h.writeReg rd hv).done

/-- The shape of the three-way compares: `STATUS.CMP` is written with an order that both blocks compute alike. -/
theorem doneCompare (h : SameView s s') {o o' : Ordering} (ho : o = o') :
    SameNext (doneCompare o s) (doneCompare o' s') :=
  (h.setStatus (by rw [ho, h.status])).done

/-- The shape of the commands with a divisor or modulus: DivisionByZero if it is 0 (60_exceptions.md R261). -/
theorem unlessZero (h : SameView s s') (rb : Reg) {o o' : Outcome} (ho : SameNext o o') :
    SameNext (if s.r rb = 0 then Machine.fail .divisionByZero s else o)
      (if s'.r rb = 0 then Machine.fail .divisionByZero s' else o') :=
  .guard (by rw [h.reg rb]) (h.fail .divisionByZero) ho

theorem execParse (h : SameView s s') (rd : Reg) : SameNext (execParse rd s) (execParse rd s') := by
  unfold Machine.execParse
  rw [h.txt]
  cases literal s'.txt with
  | none => exact h.fail .invalidLiteral
  | some lit => exact h.done_writeReg rd (by rw [h.bits])

/-! ## Every command keeps the view -/

/-- Every command but RAND and URAND computes its results from the width, the registers, STATUS and TXT alone. -/
theorem exec (h : SameView s s') (i : Instr) (hrand : ∀ rd, i ≠ .rand rd) (hurand : ∀ rd ra rb, i ≠ .urand rd ra rb) :
    SameNext (exec i s) (exec i s') := by
  cases i with
  | mov rd | ldi rd | add rd | sub rd | mul rd | and rd | or rd | xor rd | not rd | shl rd | shr rd | shli rd | shri rd
  | seq rd | sne rd | slt rd | sle rd | sgt rd | sge rd =>
    exact h.done_writeReg rd (by simp only [h.bits, h.reg])
  | cmp | cmpi => exact h.doneCompare (by simp only [h.reg])
  | mulw rd => exact .guard Iff.rfl (h.writePair rd (by simp only [h.reg])).done (h.fail .illegalCommand)
  | div rd _ rb | rem rd _ rb => exact h.unlessZero rb (h.done_writeReg rd (by simp only [h.reg]))
  | divrem rd rc ra rb =>
    have hquot := h.writeReg rd (show s.r ra / s.r rb = s'.r ra / s'.r rb by simp only [h.reg])
    exact .guard Iff.rfl (h.fail .illegalCommand) (h.unlessZero rb (hquot.done_writeReg rc (by simp only [h.reg])))
  | modpow rd _ _ rc => exact h.unlessZero rc (h.done_writeReg rd (by simp only [h.reg]))
  | parse rd => exact h.execParse rd
  | fmtd | fmth => exact (h.setTxt (by simp only [h.bits, h.reg])).done
  | seed => exact (h.setEng _ _).done
  | clrst => exact (h.setStatus (by rw [h.status])).done
  | rand rd => exact absurd rfl (hrand rd)
  | urand rd ra rb => exact absurd rfl (hurand rd ra rb)

end SameView

/-- Settles O49: two blocks with the same view have the same view after every command but RAND and URAND. -/
theorem resultsDoNotDependOnTheLimbWidth : Obligations.ResultsDoNotDependOnTheLimbWidth := by
  intro i s s' t t' hbits hreg hstatus htxt hrand hurand ht ht'
  have hview : SameView s s' := ⟨hbits, hreg, hstatus, htxt⟩
  have hnext : SameView t t' := (hview.exec i hrand hurand).view ht ht'
  exact ⟨hnext.reg, hnext.status, hnext.txt⟩

end Sys2Proof.Machine
end

section
/-! PROOFS. The state of the block (10_state.md): its values after reset, the STATUS word, which commands write STATUS, TXT
and ENG, and the bound on TXTLEN. What a completed command can have done is said once, by `Effect`. -/

namespace Sys2Proof.Machine

open Sys2Proof.Safety

/-! ## After reset -/

/-- Settles O1: each value is the one `State.resetFor` lists. -/
theorem resetGivesTheListedValues : Obligations.ResetGivesTheListedValues :=
  fun p => ⟨rfl, State.resetFor_r p, rfl, rfl, rfl, rfl⟩

/-- Settles O53: the text after reset is empty. -/
theorem textFitsAfterReset : Obligations.TextFitsAfterReset :=
  fun p => Nat.zero_le p.txtCap

/-! ## The STATUS word -/

theorem cmpCode_lt (o : Ordering) : cmpCode o < 3 := by cases o <;> decide

theorem ErrorKind.code_lt (e : ErrorKind) : e.code < 5 := by cases e <;> decide

theorem Status.lastCode_lt (st : Status) : st.lastCode < 5 := by
  unfold Status.lastCode
  split
  · decide
  · exact ErrorKind.code_lt _

/-- How large the numbers in the fields of STATUS can be. -/
theorem Status.fields_bounded (st : Status) :
    st.dz.toNat ≤ 1 ∧ st.il.toNat ≤ 1 ∧ st.ic.toNat ≤ 1 ∧ st.ir.toNat ≤ 1 ∧ cmpCode st.cmp < 3 ∧ st.lastCode < 5 :=
  ⟨st.dz.toNat_le, st.il.toNat_le, st.ic.toNat_le, st.ir.toNat_le, cmpCode_lt st.cmp, st.lastCode_lt⟩

/-- The weighted sum of the fields fits 32 bits, so the word loses nothing of it. -/
theorem Status.toNat_word (st : Status) :
    st.word.toNat = st.dz.toNat + 2 * st.il.toNat + 4 * st.ic.toNat + 8 * st.ir.toNat + 16 * cmpCode st.cmp +
      256 * st.lastCode := by
  have hbounds := st.fields_bounded
  exact Nat.mod_eq_of_lt (by omega)

/-- A field of a word is what division and remainder leave of its value. -/
theorem extractLsb'_eq_of_toNat {n : Nat} (w : BitVec n) (start len : Nat) (v : BitVec len)
    (h : w.toNat / 2 ^ start % 2 ^ len = v.toNat) : w.extractLsb' start len = v := by
  apply BitVec.eq_of_toNat_eq
  rw [BitVec.extractLsb'_toNat, Nat.shiftRight_eq_div_pow, h]

theorem Status.word_cmpField (st : Status) : st.word.extractLsb' 4 2 = BitVec.ofNat 2 (cmpCode st.cmp) := by
  have hbounds := st.fields_bounded
  apply extractLsb'_eq_of_toNat
  rw [st.toNat_word, BitVec.toNat_ofNat]
  omega

theorem Status.word_lastField (st : Status) : st.word.extractLsb' 8 3 = BitVec.ofNat 3 st.lastCode := by
  have hbounds := st.fields_bounded
  apply extractLsb'_eq_of_toNat
  rw [st.toNat_word, BitVec.toNat_ofNat]
  omega

/-- Settles O43: each field of the word is read off the weighted sum of `Status.toNat_word`. -/
theorem statusWordLayout : Obligations.StatusWordLayout := by
  intro st
  have hbounds := st.fields_bounded
  have hword := st.toNat_word
  refine ⟨?dz, ?il, ?ic, ?ir, ?cmp, ?reserved, ?last, ?reservedHigh⟩
  case cmp =>
    rw [st.word_cmpField]
    cases st.cmp <;> rfl
  case last =>
    rw [st.word_lastField, Status.lastCode]
    rcases st.last with _ | e
    · rfl
    · cases e <;> rfl
  all_goals
    apply extractLsb'_eq_of_toNat
    simp only [BitVec.toNat_ofBool, BitVec.ofNat_eq_ofNat, BitVec.toNat_ofNat]
    omega

/-! ## Outcomes whose next state has a property -/

/-- If the outcome is a next state, `P` holds of it. -/
def NextIs (P : State → Prop) (o : Outcome) : Prop := ∀ t, o = .next t → P t

namespace NextIs

variable {P : State → Prop}

theorem of_next {t : State} (h : P t) : NextIs P (.next t) := by
  rintro _ ⟨⟩
  exact h

theorem of_fault (f : Fault) : NextIs P (.fault f) := nofun

theorem of_refused (r : Refusal) : NextIs P (.refused r) := nofun

theorem guard {c : Prop} [Decidable c] {o o' : Outcome} (h : c → NextIs P o) (h' : ¬ c → NextIs P o') :
    NextIs P (if c then o else o') := by
  split
  · next hc => exact h hc
  · next hc => exact h' hc

end NextIs

/-! ## Emitted text fits the buffer (44_literal.md R202, R203) -/

theorem decimalText_length_le (s : State) (i : Reg) :
    (decimalText s.params.bits (s.r i)).length ≤ s.params.txtCap := by
  have hcap : 0 < s.params.txtCap := lt_of_lt_of_le (by omega) s.params.hex_fits
  rw [decimalText_eq]
  exact canonicalDigits_length_le 10 _ _ (by decide) hcap (lt_of_lt_of_le (s.r_lt i) s.params.decimal_fits)

/-- Every limb width is a multiple of 4, and so is BITS: the hexadecimal digits cover it exactly. -/
theorem four_dvd_bits (p : Config.Params) : 4 ∣ p.bits := by
  have hlimb : 4 ∣ p.limbW.bits := by cases p.limbW <;> decide
  exact hlimb.trans (Nat.dvd_of_mod_eq_zero p.limbs_fill)

theorem hexText_length_le (s : State) (i : Reg) : (hexText s.params.bits (s.r i)).length ≤ s.params.txtCap := by
  have hnative := s.params.native_fits
  have hhex := s.params.hex_fits
  have hlt : s.r i < 16 ^ (s.params.bits / 4) := by
    calc s.r i < 2 ^ s.params.bits := s.r_lt i
      _ = 2 ^ (4 * (s.params.bits / 4)) := by rw [Nat.mul_div_cancel' (four_dvd_bits s.params)]
      _ = 16 ^ (s.params.bits / 4) := pow_mul 2 4 _
  have hdigits := canonicalDigits_length_le 16 _ _ (by decide) (by omega) hlt
  rw [hexText_eq, List.length_cons, List.length_cons]
  omega

/-! ## What a completed command can have done -/

/-- The next states a command can answer: it raises an error, or it completes and has written what its family writes. Which
error and which registers is left open: this says which other pieces of state a command can reach. -/
inductive Effect (s : State) : Instr → State → Prop where
  | raises (i : Instr) (e : ErrorKind) : Effect s i (s.raise e)
  | registers (i : Instr) (regs : Vector (BitVec s.params.bits) 16) : Effect s i { s with regs := regs }.succeed
  | cmp (ra rb : Reg) (o : Ordering) : Effect s (.cmp ra rb) { s with status := s.status.setCmp o }.succeed
  | cmpi (ra : Reg) (imm16 : BitVec 16) (o : Ordering) :
      Effect s (.cmpi ra imm16) { s with status := s.status.setCmp o }.succeed
  | fmtd (ra : Reg) (text : List Byte) : text.length ≤ s.params.txtCap → Effect s (.fmtd ra) (s.setTxt text).succeed
  | fmth (ra : Reg) (text : List Byte) : text.length ≤ s.params.txtCap → Effect s (.fmth ra) (s.setTxt text).succeed
  | seed (ra : Reg) (e : Config.EngineState) : Effect s (.seed ra) (s.setEng e).succeed
  | rand (rd : Reg) (e : Config.EngineState) (v : Nat) : Effect s (.rand rd) ((s.setEng e).writeReg rd v).succeed
  | urand (rd ra rb : Reg) (e : Config.EngineState) (v : Nat) :
      Effect s (.urand rd ra rb) ((s.setEng e).writeReg rd v).succeed
  | clrst : Effect s .clrst { s with status := s.status.clearSticky }.succeed

theorem fail_effect (s : State) (i : Instr) (e : ErrorKind) : NextIs (Effect s i) (fail e s) :=
  .of_next (.raises i e)

theorem execParse_effect (s : State) (rd : Reg) : NextIs (Effect s (.parse rd)) (execParse rd s) := by
  unfold execParse
  cases literal s.txt with
  | none => exact fail_effect s _ .invalidLiteral
  | some lit => exact .of_next (.registers _ _)

theorem execUrand_effect (s : State) (rd ra rb : Reg) : NextIs (Effect s (.urand rd ra rb)) (execUrand rd ra rb s) := by
  unfold execUrand
  refine .guard (fun _ => fail_effect s _ .invalidRange) fun _ => ?_
  cases sample s.params (s.r ra) (s.r rb) s.eng with
  | none => exact .of_fault _
  | some d => exact .of_next (.urand rd ra rb d.1 d.2)

/-- A command that answers a next state has had one of the effects of its family. -/
theorem exec_effect (s : State) (i : Instr) : NextIs (Effect s i) (exec i s) := by
  cases i with
  | mov | ldi | add | sub | mul | and | or | xor | not | shl | shr | shli | shri | seq | sne | slt | sle | sgt | sge =>
    exact .of_next (.registers _ _)
  | mulw => exact .guard (fun _ => .of_next (.registers _ _)) fun _ => fail_effect s _ _
  | div | rem | modpow => exact .guard (fun _ => fail_effect s _ _) fun _ => .of_next (.registers _ _)
  | divrem =>
    exact .guard (fun _ => fail_effect s _ _) fun _ =>
      .guard (fun _ => fail_effect s _ _) fun _ => .of_next (.registers _ _)
  | cmp ra rb => exact .of_next (.cmp ra rb _)
  | cmpi ra imm16 => exact .of_next (.cmpi ra imm16 _)
  | parse rd => exact execParse_effect s rd
  | fmtd ra => exact .of_next (.fmtd ra _ (decimalText_length_le s ra))
  | fmth ra => exact .of_next (.fmth ra _ (hexText_length_le s ra))
  | seed ra => exact .of_next (.seed ra _)
  | rand rd => exact .of_next (.rand rd _ _)
  | urand rd ra rb => exact execUrand_effect s rd ra rb
  | clrst => exact .of_next .clrst

/-! ## Who writes STATUS, TXT and ENG -/

/-- Settles O46: an error sets its own sticky bit, CLRST alone clears them, and the compares alone write CMP. -/
theorem stickyBitsAndCmpPersist : Obligations.StickyBitsAndCmpPersist := by
  intro i s t ht
  cases exec_effect s i t ht with
  | raises _ e => exact ⟨fun _ => by simp, fun _ _ => by simp⟩
  | registers | fmtd | fmth | seed | rand | urand => exact ⟨fun _ => by simp, fun _ _ => rfl⟩
  | cmp ra rb o => exact ⟨fun _ => by simp [Status.setCmp], fun hcmp _ => absurd rfl (hcmp ra rb)⟩
  | cmpi ra imm16 o => exact ⟨fun _ => by simp [Status.setCmp], fun _ hcmpi => absurd rfl (hcmpi ra imm16)⟩
  | clrst => exact ⟨fun hclrst => absurd rfl hclrst, fun _ _ => rfl⟩

/-- Settles O47: of all effects, only those of SEED, RAND and URAND write ENG and only those of FMTD and FMTH write TXT. -/
theorem engineAndTextHaveTheirWriters : Obligations.EngineAndTextHaveTheirWriters := by
  intro i s t ht
  cases exec_effect s i t ht with
  | raises | registers | cmp | cmpi | clrst => exact ⟨rfl, rfl, rfl, fun _ _ _ => rfl, fun _ _ => rfl⟩
  | fmtd ra => exact ⟨rfl, rfl, rfl, fun _ _ _ => rfl, fun hfmtd _ => absurd rfl (hfmtd ra)⟩
  | fmth ra => exact ⟨rfl, rfl, rfl, fun _ _ _ => rfl, fun _ hfmth => absurd rfl (hfmth ra)⟩
  | seed ra => exact ⟨rfl, rfl, rfl, fun hseed _ _ => absurd rfl (hseed ra), fun _ _ => rfl⟩
  | rand rd => exact ⟨rfl, rfl, rfl, fun _ hrand _ => absurd rfl (hrand rd), fun _ _ => rfl⟩
  | urand rd ra rb => exact ⟨rfl, rfl, rfl, fun _ _ hurand => absurd rfl (hurand rd ra rb), fun _ _ => rfl⟩

/-- Settles O48: ENG is no part of `SameView`, which every command but RAND and URAND keeps. -/
theorem engineIsHiddenFromOtherCommands : Obligations.EngineIsHiddenFromOtherCommands := by
  intro i s t e ht hrand hurand
  have hview : SameView s { s with eng := e } := ⟨rfl, fun _ => rfl, rfl, rfl⟩
  obtain ⟨t', u, ht', hu, hsame⟩ := hview.exec i hrand hurand
  cases ht.symm.trans ht'
  exact ⟨u, hu, fun j => (hsame.reg j).symm, hsame.status.symm, hsame.txt.symm⟩

/-! ## TXTLEN stays within TXT_CAP (10_state.md R43) -/

/-- The text of `t` fits its buffer, on the parameters of `s`. -/
def FitsAsIn (s t : State) : Prop := TextFits t ∧ t.params = s.params

section
variable {s : State} (hs : TextFits s)
include hs

/-- Only FMTD and FMTH write the text, and what they write fits. -/
theorem Effect.fitsAsIn {i : Instr} {t : State} (h : Effect s i t) : FitsAsIn s t := by
  cases h with
  | fmtd _ _ hfits | fmth _ _ hfits => exact ⟨hfits, rfl⟩
  | raises | registers | cmp | cmpi | seed | rand | urand | clrst => exact ⟨hs, rfl⟩

theorem runCommand_fitsAsIn (w : CommandWord) : NextIs (FitsAsIn s) (runCommand w s) := by
  unfold runCommand
  cases decode w with
  | command i => exact fun t ht => (exec_effect s i t ht).fitsAsIn hs
  | illegal => exact .of_next ⟨hs, rfl⟩

theorem hCmd_fitsAsIn (w : CommandWord) : NextIs (FitsAsIn s) (hCmd w s) := by
  have hrun := runCommand_fitsAsIn hs w
  unfold hCmd
  cases hw : runCommand w s with
  | next t => exact .of_next (hrun t hw)
  | fault f => exact .of_fault f
  | refused r => exact .of_refused r

theorem perform_fitsAsIn (tx : HostTransaction) : NextIs (FitsAsIn s) (perform tx s) := by
  cases tx with
  | hCmd w => exact hCmd_fitsAsIn hs w
  | hRreg | hRtxt | hRstatus | hWnat => exact .of_next ⟨hs, rfl⟩
  | hWreg => exact .guard (fun _ => .of_next ⟨hs, rfl⟩) fun _ => .of_refused _
  | hRlimb => exact .guard (fun _ => .of_next ⟨hs, rfl⟩) fun _ => .of_next ⟨hs, rfl⟩
  | hWlimb =>
    exact .guard (fun _ => .guard (fun _ => .of_next ⟨hs, rfl⟩) fun _ => .of_next ⟨hs, rfl⟩) fun _ => .of_refused _
  | hWtxt => exact .guard (fun hfits => .of_next ⟨hfits, rfl⟩) fun _ => .of_next ⟨hs, rfl⟩
  | hReset | hCmdAbandoned => exact .of_next ⟨textFitsAfterReset s.params, rfl⟩

theorem step_fitsAsIn : NextIs (FitsAsIn s) (step s) := by
  unfold step serve
  split
  · exact .of_next ⟨hs, rfl⟩
  · next req rest _ =>
    have hrest : TextFits { s with pending := rest } := hs
    split
    · exact perform_fitsAsIn hrest req.tx
    · exact .of_refused _

end

/-- Settles O52: each transaction keeps the text, empties it, or writes one that fits. -/
theorem textFitsIsKeptByEveryStep : Obligations.TextFitsIsKeptByEveryStep :=
  fun _ t hs ht => step_fitsAsIn hs t ht

end Sys2Proof.Machine
end

section
/-! PROOFS. The host transactions (20_memory.md R60 to R76). `step_of_host` says that a step performs the oldest transaction
of the one host on the state without it; each statement then reads off what that transaction does there. -/

namespace Sys2Proof.Machine

/-! ## The step and the list of issued transactions (20_memory.md R76) -/

section
variable {s : State} {rest : List Request}

/-- The one host's oldest transaction is performed on the state it has been taken off. -/
theorem step_of_host {tx : HostTransaction} (h : s.pending = ⟨.host, tx⟩ :: rest) :
    step s = perform tx { s with pending := rest } := by
  unfold step serve
  rw [h]

theorem step_of_other {tx : HostTransaction} (h : s.pending = ⟨.other, tx⟩ :: rest) :
    step s = .refused .secondHost := by
  unfold step serve
  rw [h]

end

/-- `t` has the issued transactions of `s`. -/
def SamePending (s t : State) : Prop := t.pending = s.pending

theorem Effect.samePending {s t : State} {i : Instr} (h : Effect s i t) : SamePending s t := by
  cases h <;> rfl

theorem runCommand_samePending (w : CommandWord) (s : State) : NextIs (SamePending s) (runCommand w s) := by
  unfold runCommand
  cases decode w with
  | command i => exact fun t ht => (exec_effect s i t ht).samePending
  | illegal => exact .of_next rfl

theorem hCmd_samePending (w : CommandWord) (s : State) : NextIs (SamePending s) (hCmd w s) := by
  have hrun := runCommand_samePending w s
  unfold hCmd
  cases hw : runCommand w s with
  | next t => exact .of_next (hrun t hw)
  | fault f => exact .of_fault f
  | refused r => exact .of_refused r

/-- No transaction issues or takes off another one, not even H_RESET (log 4). -/
theorem perform_samePending (tx : HostTransaction) (s : State) : NextIs (SamePending s) (perform tx s) := by
  cases tx with
  | hCmd w => exact hCmd_samePending w s
  | hRreg | hRtxt | hRstatus | hWnat | hReset | hCmdAbandoned => exact .of_next rfl
  | hWreg => exact .guard (fun _ => .of_next rfl) fun _ => .of_refused _
  | hRlimb | hWtxt => exact .guard (fun _ => .of_next rfl) fun _ => .of_next rfl
  | hWlimb => exact .guard (fun _ => .guard (fun _ => .of_next rfl) fun _ => .of_next rfl) fun _ => .of_refused _

/-- Settles O6: the step takes the oldest transaction off the list, and performing it leaves the others there. -/
theorem stepTakesTheOldestTransaction : Obligations.StepTakesTheOldestTransaction := by
  rintro s t ⟨issuer, tx⟩ rest hpending ht
  cases issuer with
  | host =>
    rw [step_of_host hpending] at ht
    exact perform_samePending tx _ t ht
  | other =>
    rw [step_of_other hpending] at ht
    cases ht

/-! ## H_CMD and H_RESET -/

theorem runCommand_of_command {w : CommandWord} {i : Instr} (h : decode w = .command i) (s : State) :
    runCommand w s = exec i s := by
  unfold runCommand
  rw [h]

/-- Settles O3: H_CMD runs the decoded command and answers `STATUS.LAST` of the state that command leaves. -/
theorem stepPerformsTheDecodedCommand : Obligations.StepPerformsTheDecodedCommand := by
  intro s w rest i hpending hdecode
  rw [step_of_host hpending]
  change hCmd w _ = _
  unfold hCmd
  rw [runCommand_of_command hdecode]
  cases exec i { s with pending := rest } <;> rfl

/-- Settles O2: both transactions leave `State.afterReset`, with the parameters and the later transactions of `s`. -/
theorem hostResetOverwritesEverything : Obligations.HostResetOverwritesEverything := by
  intro s tx rest htx hpending
  have hreset : step s = hReset { s with pending := rest } := by
    rw [step_of_host hpending]
    obtain rfl | ⟨w, rfl⟩ := htx <;> rfl
  exact ⟨_, hreset, rfl, State.resetFor_r s.params, rfl, rfl, rfl, rfl, fun c => by simp⟩

/-! ## Reads -/

/-- Settles O7: the three reads only respond. -/
theorem hostReadsReturnStateUnchanged : Obligations.HostReadsReturnStateUnchanged :=
  ⟨fun _ _ _ hpending => step_of_host hpending, fun _ _ hpending => step_of_host hpending,
    fun _ _ hpending => step_of_host hpending⟩

/-! ## Writes to a register -/

/-- `t` has the block's state of `s` but for register `i`, which holds `v`. The host's side is free. -/
structure SetsRegister (i : Reg) (v : Nat) (s t : State) : Prop where
  reg : t.r i = v
  others : ∀ j, j ≠ i → t.r j = s.r j
  params : t.params = s.params
  status : t.status = s.status
  txt : t.txt = s.txt
  eng : t.eng = s.eng

/-- A value of the register's width is stored unreduced (00_scope.md R13). -/
theorem setsRegister_writeReg (s : State) (i : Reg) {v : Nat} (rest : List Request) (resp : Response)
    (hv : v < 2 ^ s.params.bits) :
    SetsRegister i v s ((State.writeReg { s with pending := rest } i v).respond resp) where
  reg := by simp [Nat.mod_eq_of_lt hv]
  others j hj := State.r_writeReg_of_ne _ i j v hj
  params := rfl
  status := rfl
  txt := rfl
  eng := rfl

/-- A native pattern fits a register, whose width is at least 64 (00_scope.md R10). -/
theorem toNat_native_lt (s : State) (n : BitVec 64) : n.toNat < 2 ^ s.params.bits :=
  lt_of_lt_of_le n.isLt (Nat.pow_le_pow_right (by decide) s.params.native_fits)

theorem step_hWreg {s : State} {i : Reg} {v : Nat} {rest : List Request}
    (hpending : s.pending = ⟨.host, .hWreg i v⟩ :: rest) (hv : v < 2 ^ s.params.bits) :
    ∃ t, step s = .next t ∧ SetsRegister i v s t :=
  ⟨_, (step_of_host hpending).trans (if_pos hv), setsRegister_writeReg s i rest .done hv⟩

theorem step_hWnat {s : State} {i : Reg} {n : BitVec 64} {rest : List Request}
    (hpending : s.pending = ⟨.host, .hWnat i n⟩ :: rest) : ∃ t, step s = .next t ∧ SetsRegister i n.toNat s t :=
  ⟨_, step_of_host hpending, setsRegister_writeReg s i rest .done (toNat_native_lt s n)⟩

/-- Settles O8: each of the two writes sets its register to the given value, which fits the width. -/
theorem hostWritesOneRegister : Obligations.HostWritesOneRegister := by
  intro s tx i v rest htx hpending
  have hstep : ∃ t, step s = .next t ∧ SetsRegister i v s t := by
    obtain ⟨rfl, hv⟩ | ⟨n, rfl, rfl⟩ := htx
    · exact step_hWreg hpending hv
    · exact step_hWnat hpending
  obtain ⟨t, ht, hset⟩ := hstep
  exact ⟨t, ht, hset.reg, hset.others, hset.params, hset.status, hset.txt, hset.eng⟩

/-! ## Limbs -/

/-- A register with one of its limbs replaced still holds a value of its width. -/
theorem withLimb_r_lt (s : State) (i : Reg) {j x : Nat} (hx : x < 2 ^ s.params.limbW.bits) (hj : j < s.params.nlimb) :
    withLimb s.params.limbW.bits (s.r i) j x < 2 ^ s.params.bits := by
  have hr : s.r i < 2 ^ (s.params.nlimb * s.params.limbW.bits) := by
    rw [params_nlimb_mul]
    exact s.r_lt i
  simpa only [params_nlimb_mul] using withLimb_lt _ _ _ _ _ hr hj hx

section
variable {s : State} {i : Reg} {j x : Nat} {rest : List Request}

theorem step_hWlimb (hpending : s.pending = ⟨.host, .hWlimb i j x⟩ :: rest) (hx : x < 2 ^ s.params.limbW.bits)
    (hj : j < s.params.nlimb) :
    ∃ t, step s = .next t ∧ SetsRegister i (withLimb s.params.limbW.bits (s.r i) j x) s t :=
  ⟨_, (step_of_host hpending).trans ((if_pos hx).trans (if_pos hj)),
    setsRegister_writeReg s i rest .done (withLimb_r_lt s i hx hj)⟩

theorem step_hWlimb_beyond (hpending : s.pending = ⟨.host, .hWlimb i j x⟩ :: rest) (hx : x < 2 ^ s.params.limbW.bits)
    (hj : s.params.nlimb ≤ j) : step s = .next { s with pending := rest, response := some .refused } :=
  (step_of_host hpending).trans ((if_pos hx).trans (if_neg (Nat.not_lt.mpr hj)))

theorem step_hRlimb (hpending : s.pending = ⟨.host, .hRlimb i j⟩ :: rest) (hj : j < s.params.nlimb) :
    step s =
      .next { s with pending := rest, response := some (.limb (limb s.params.limbW.bits (s.r i) j)) } :=
  (step_of_host hpending).trans (if_pos hj)

theorem step_hRlimb_beyond (hpending : s.pending = ⟨.host, .hRlimb i j⟩ :: rest) (hj : s.params.nlimb ≤ j) :
    step s = .next { s with pending := rest, response := some .refused } :=
  (step_of_host hpending).trans (if_neg (Nat.not_lt.mpr hj))

end

/-- Settles O9: H_WLIMB sets its register to the old value with limb `j` replaced, whose limbs are `x` at `j` and the old
ones elsewhere. -/
theorem limbAccessReachesOneLimb : Obligations.LimbAccessReachesOneLimb := by
  refine ⟨fun s i j x rest hpending hx => ⟨fun hj => ?_, step_hWlimb_beyond hpending hx⟩,
    fun s i j rest hpending => ⟨step_hRlimb hpending, step_hRlimb_beyond hpending⟩⟩
  obtain ⟨t, ht, hset⟩ := step_hWlimb hpending hx hj
  refine ⟨t, ht, ?_, fun k _ hk => ?_, hset.others, hset.params, hset.status, hset.txt, hset.eng⟩
  · rw [hset.reg, limb_withLimb_same _ _ _ _ hx]
  · rw [hset.reg, limb_withLimb_of_ne _ _ _ _ _ hx hk]

/-! ## Text -/

/-- Settles O10: the length alone decides whether the text is stored (20_memory.md R65). -/
theorem hostTextIsStoredOrRefused : Obligations.HostTextIsStoredOrRefused := by
  intro s text rest hpending
  constructor
  · intro hfits
    exact ⟨_, (step_of_host hpending).trans (if_pos hfits), rfl, rfl, rfl, fun _ => rfl, rfl, rfl⟩
  · intro hlong
    exact (step_of_host hpending).trans (if_neg (Nat.not_le.mpr hlong))

end Sys2Proof.Machine
end

section
/-! PROOFS. The encoding (30_encoding.md R90 to R100). `decode_eq_command_iff` says once, in both directions, when a word
decodes to a command; that decoding and encoding are inverse is read off it. -/

namespace Sys2Proof

open Laws

/-! ## When a word decodes to a command -/

/-- The command a word's fields make is well formed exactly when the word passes the last two checks of `decode`
(30_encoding.md R97). -/
theorem wellFormed_command_iff (o : Opcode) (w : CommandWord) :
    (o.command w).wellFormed = true ↔
      (o = .mulw → Reg.isEven (fieldRd w) = true) ∧ (o = .divrem → fieldRd w ≠ fieldRc w) := by
  cases o with
  | mulw | divrem => simp [Opcode.command, Instr.wellFormed]
  | _ => exact iff_of_true rfl ⟨nofun, nofun⟩

theorem decode_eq_command_iff (w : CommandWord) (i : Instr) :
    decode w = .command i ↔
      ∃ o : Opcode, fieldOp w = o.byte ∧ w &&& o.format.zeroBits = 0 ∧ o.command w = i ∧ i.wellFormed = true := by
  constructor
  · intro h
    obtain ⟨o, hop, hzero, hmulw, hdivrem, rfl⟩ := decode_command_cases h
    exact ⟨o, hop, hzero, rfl, (wellFormed_command_iff o w).mpr ⟨hmulw, hdivrem⟩⟩
  · rintro ⟨o, hop, hzero, rfl, hwf⟩
    obtain ⟨hmulw, hdivrem⟩ := (wellFormed_command_iff o w).mp hwf
    exact decode_of_opcode hop hzero hmulw hdivrem

/-! ## Decoding and encoding are inverse -/

/-- The word of every command carries its opcode and its operands, and its zero fields are 0. -/
theorem encode_carries_command : ∀ i : Instr, EncodesFields.Statement i
  | .mov rd ra => EncodesFields.mov rd ra
  | .ldi rd imm16 => EncodesFields.ldi rd imm16
  | .add rd ra rb => EncodesFields.add rd ra rb
  | .sub rd ra rb => EncodesFields.sub rd ra rb
  | .mul rd ra rb => EncodesFields.mul rd ra rb
  | .mulw rd ra rb => EncodesFields.mulw rd ra rb
  | .div rd ra rb => EncodesFields.div rd ra rb
  | .rem rd ra rb => EncodesFields.rem rd ra rb
  | .divrem rd rc ra rb => EncodesFields.divrem rd rc ra rb
  | .and rd ra rb => EncodesFields.and rd ra rb
  | .or rd ra rb => EncodesFields.or rd ra rb
  | .xor rd ra rb => EncodesFields.xor rd ra rb
  | .not rd ra => EncodesFields.not rd ra
  | .shl rd ra rb => EncodesFields.shl rd ra rb
  | .shr rd ra rb => EncodesFields.shr rd ra rb
  | .shli rd ra imm16 => EncodesFields.shli rd ra imm16
  | .shri rd ra imm16 => EncodesFields.shri rd ra imm16
  | .cmp ra rb => EncodesFields.cmp ra rb
  | .cmpi ra imm16 => EncodesFields.cmpi ra imm16
  | .seq rd ra rb => EncodesFields.seq rd ra rb
  | .sne rd ra rb => EncodesFields.sne rd ra rb
  | .slt rd ra rb => EncodesFields.slt rd ra rb
  | .sle rd ra rb => EncodesFields.sle rd ra rb
  | .sgt rd ra rb => EncodesFields.sgt rd ra rb
  | .sge rd ra rb => EncodesFields.sge rd ra rb
  | .parse rd => EncodesFields.parse rd
  | .fmtd ra => EncodesFields.fmtd ra
  | .fmth ra => EncodesFields.fmth ra
  | .modpow rd ra rb rc => EncodesFields.modpow rd ra rb rc
  | .seed ra => EncodesFields.seed ra
  | .rand rd => EncodesFields.rand rd
  | .urand rd ra rb => EncodesFields.urand rd ra rb
  | .clrst => EncodesFields.clrst

/-- Settles O12: the word of a command carries it, so decoding reads it back unless R97 rejects it. -/
theorem decodeOfEncode : Obligations.DecodeOfEncode := by
  intro i hwf
  obtain ⟨o, hop, hzero, hcommand⟩ := encode_carries_command i
  exact (decode_eq_command_iff (encode i) i).mpr ⟨o, hop, hzero, hcommand, hwf⟩

/-- The word of opcode `op` that takes from `w` the fields its format uses (30_encoding.md R91). -/
def Format.repack (op : BitVec 8) (w : CommandWord) : Format → CommandWord
  | .r4 => pack op (fieldRd w) (fieldRa w) (fieldRb w) (fieldRc w)
  | .r3 => pack op (fieldRd w) (fieldRa w) (fieldRb w) 0
  | .r2 => pack op (fieldRd w) (fieldRa w) 0 0
  | .r1d => pack op (fieldRd w) 0 0 0
  | .r1s => pack op 0 (fieldRa w) 0 0
  | .rc => pack op 0 (fieldRa w) (fieldRb w) 0
  | .i => packImm op (fieldRd w) (fieldRa w) (fieldImm16 w)
  | .ic => packImm op 0 (fieldRa w) (fieldImm16 w)
  | .id => packImm op (fieldRd w) 0 (fieldImm16 w)
  | .n => pack op 0 0 0 0

/-- Repacking loses nothing of a word whose zero fields are 0. -/
theorem Format.repack_self {w : CommandWord} {f : Format} (hzero : w &&& f.zeroBits = 0) :
    f.repack (fieldOp w) w = w := by
  cases f with
  | r4 => exact pack_fields_r4 w hzero
  | r3 => exact pack_fields_r3 w hzero
  | r2 => exact pack_fields_r2 w hzero
  | r1d => exact pack_fields_r1d w hzero
  | r1s => exact pack_fields_r1s w hzero
  | rc => exact pack_fields_rc w hzero
  | i => exact packImm_fields w
  | ic => exact packImm_fields_ic w hzero
  | id => exact packImm_fields_id w hzero
  | n => exact pack_fields_n w hzero

/-- Encoding the command a word's fields make packs those fields again. -/
theorem encode_command (o : Opcode) (w : CommandWord) : encode (o.command w) = o.format.repack o.byte w := by
  cases o <;> rfl

/-- Settles O13: the command is made of the word's own fields, and the fields its format does not use are 0. -/
theorem encodeOfDecode : Obligations.EncodeOfDecode := by
  intro w i h
  obtain ⟨o, hop, hzero, rfl, hwf⟩ := (decode_eq_command_iff w i).mp h
  have hword : encode (o.command w) = w := by rw [encode_command, ← hop, Format.repack_self hzero]
  exact ⟨hword, hwf⟩

/-- Settles O11: each of the twelve closed words is decoded. -/
theorem exampleWordsDecode : Obligations.ExampleWordsDecode := by
  refine ⟨?_, ?_, ?_, ?_, ?_, ?_, ?_, ?_, ?_, ?_, ?_, ?_⟩ <;> decide

/-! ## Unassigned opcodes (30_encoding.md R96) -/

/-- An unassigned opcode is the only reason `decode` names so: the checks after the opcode map have reasons of their own. -/
theorem decode_eq_unassigned_iff (w : CommandWord) :
    decode w = .illegal .unassignedOpcode ↔ opcodeOf (fieldOp w) = none := by
  unfold decode
  cases opcodeOf (fieldOp w) with
  | none => exact iff_of_true rfl rfl
  | some o =>
    dsimp only
    split_ifs <;> simp

/-- The ranges R96 lists are the bytes with no opcode: a check of all 256. -/
theorem opcodeOf_eq_none_iff : ∀ b : BitVec 8,
    (b.toNat = 0x00 ∨ 0x03 ≤ b.toNat ∧ b.toNat ≤ 0x0F ∨ 0x17 ≤ b.toNat ∧ b.toNat ≤ 0x1F ∨
      0x28 ≤ b.toNat ∧ b.toNat ≤ 0x2F ∨ 0x38 ≤ b.toNat ∧ b.toNat ≤ 0x3F ∨ 0x43 ≤ b.toNat ∧ b.toNat ≤ 0x4F ∨
      0x51 ≤ b.toNat ∧ b.toNat ≤ 0x5F ∨ 0x63 ≤ b.toNat ∧ b.toNat ≤ 0x6F ∨ 0x71 ≤ b.toNat ∧ b.toNat ≤ 0xFF) ↔
      opcodeOf b = none := by
  decide

theorem Machine.runCommand_of_illegal {w : CommandWord} {why : DecodeFault} (h : decode w = .illegal why) (s : State) :
    runCommand w s = fail .illegalCommand s := by
  unfold runCommand
  rw [h]

/-- Settles O15: the opcode map has no value at the listed bytes alone, and an illegal word raises IllegalCommand. -/
theorem unlistedOpcodesAreIllegal : Obligations.UnlistedOpcodesAreIllegal := by
  constructor
  · intro w
    exact (opcodeOf_eq_none_iff (fieldOp w)).trans (decode_eq_unassigned_iff w).symm
  · intro w s h
    rw [Machine.runCommand_of_illegal h]
    exact Machine.fail_raises s .illegalCommand

end Sys2Proof
end

section
/-! PROOFS. The rows of spec/opcode_table.json against the decoder (30_encoding.md R95, R97, R98). The match and the mask of
each row are those of one opcode (`exists_row_iff`), and matching them is what the first checks of `decode` ask
(`matches_row_iff`). -/

namespace Sys2Proof

/-! ## Words under a mask -/

theorem append_eq_append_iff {m n : Nat} (a c : BitVec m) (b d : BitVec n) : a ++ b = c ++ d ↔ a = c ∧ b = d := by
  constructor
  · intro h
    have hleft := congrArg (BitVec.extractLsb' n m) h
    have hright := congrArg (BitVec.extractLsb' 0 n) h
    rw [BitVec.extractLsb'_append_eq_left, BitVec.extractLsb'_append_eq_left] at hleft
    rw [BitVec.extractLsb'_append_eq_right, BitVec.extractLsb'_append_eq_right] at hright
    exact ⟨hleft, hright⟩
  · rintro ⟨rfl, rfl⟩
    rfl

/-- A word is its opcode byte above its other 24 bits. -/
theorem fieldOp_append_low (w : CommandWord) : fieldOp w ++ w.extractLsb' 0 24 = w := by
  have hparts := BitVec.extractLsb'_append_extractLsb'_eq_extractLsb' (x := w) (len₂ := 8) (show 24 = 0 + 24 from rfl)
  exact hparts.trans BitVec.extractLsb'_eq_self

/-- A mask over the whole opcode byte and the bits `z` below it leaves `op` alone exactly of the words of that opcode whose
bits `z` are 0. -/
theorem and_opMask_eq_iff (w : CommandWord) (op : BitVec 8) (z : BitVec 24) :
    w &&& (BitVec.allOnes 8 ++ z) = op ++ 0#24 ↔ fieldOp w = op ∧ w &&& (0#8 ++ z) = 0 := by
  have hzero : (0 : CommandWord) = 0#8 ++ 0#24 := rfl
  rw [← fieldOp_append_low w, hzero, BitVec.and_append, BitVec.and_append, append_eq_append_iff, append_eq_append_iff,
    fieldOp_append_low, BitVec.and_allOnes, BitVec.and_zero]
  simp

/-- Bit 20 is the lowest bit of the field rd (30_encoding.md R90). -/
theorem and_bit20_eq_zero_iff (w : CommandWord) : w &&& 0x00100000 = 0 ↔ Reg.isEven (fieldRd w) = true := by
  have hmask : w &&& 0x00100000 = 0 ↔ w.getLsbD 20 = false := by
    have hbit : (0x00100000 : CommandWord) = BitVec.twoPow 32 20 := rfl
    rw [hbit, BitVec.and_twoPow]
    cases w.getLsbD 20 <;> decide
  have hrd : (fieldRd w).val = w.toNat >>> 20 % 2 ^ 4 := BitVec.extractLsb'_toNat 20 4 w
  rw [hmask, Reg.isEven, hrd, beq_iff_eq, BitVec.getLsbD, Nat.testBit_eq_decide_div_mod_eq, Nat.shiftRight_eq_div_pow,
    decide_eq_false_iff_not]
  omega

/-! ## The row of an opcode -/

/-- The bits below the opcode that a command's row asks to be 0: its format's zero fields, and for MULW also the lowest bit
of rd (30_encoding.md R91, R97). -/
def Opcode.clearBits : Opcode → BitVec 24
  | .mulw => 0x100FFF
  | o => o.format.zeroBits.extractLsb' 0 24

/-- The match and the mask of an opcode's row. -/
def Opcode.row (o : Opcode) : CommandWord × CommandWord := (o.byte ++ 0#24, BitVec.allOnes 8 ++ o.clearBits)

/-- The opcodes in the order of 30_encoding.md R95. -/
def opcodes : List Opcode :=
  [.mov, .ldi, .add, .sub, .mul, .mulw, .div, .rem, .divrem, .and, .or, .xor, .not, .shl, .shr, .shli, .shri, .cmp, .cmpi,
    .seq, .sne, .slt, .sle, .sgt, .sge, .parse, .fmtd, .fmth, .modpow, .seed, .rand, .urand, .clrst]

theorem mem_opcodes (o : Opcode) : o ∈ opcodes := by cases o <;> decide

theorem opcodeRows_eq : opcodeRows.map Prod.snd = opcodes.map Opcode.row := rfl

/-- The table has the rows of the opcodes and no others. -/
theorem exists_row_iff (P : CommandWord × CommandWord → Prop) : (∃ row ∈ opcodeRows, P row.2) ↔ ∃ o : Opcode, P o.row :=
  calc (∃ row ∈ opcodeRows, P row.2)
    _ ↔ ∃ r ∈ opcodeRows.map Prod.snd, P r := by simp only [List.mem_map, exists_exists_and_eq_and]
    _ ↔ ∃ o ∈ opcodes, P o.row := by simp only [opcodeRows_eq, List.mem_map, exists_exists_and_eq_and]
    _ ↔ ∃ o : Opcode, P o.row := by simp only [mem_opcodes, true_and]

theorem and_clearBits_eq_zero_iff (w : CommandWord) (o : Opcode) :
    w &&& (0#8 ++ o.clearBits) = 0 ↔ w &&& o.format.zeroBits = 0 ∧ (o = .mulw → Reg.isEven (fieldRd w) = true) := by
  cases o with
  | mulw =>
    have hsplit : 0#8 ++ Opcode.clearBits .mulw = Format.zeroBits .r3 ||| 0x00100000 := rfl
    rw [hsplit, BitVec.and_or_distrib_left, ← and_bit20_eq_zero_iff]
    simp [Opcode.format]
  | _ => exact (and_iff_left nofun).symm

/-- A word matches an opcode's row when it has that opcode, its zero fields are 0 and, for MULW, rd is even. -/
theorem matches_row_iff (w : CommandWord) (o : Opcode) :
    w &&& o.row.2 = o.row.1 ↔
      fieldOp w = o.byte ∧ w &&& o.format.zeroBits = 0 ∧ (o = .mulw → Reg.isEven (fieldRd w) = true) :=
  (and_opMask_eq_iff w o.byte o.clearBits).trans (and_congr_right' (and_clearBits_eq_zero_iff w o))

/-! ## The table and the decoder -/

theorem byte_eq_iff (o o' : Opcode) : o.byte = o'.byte ↔ o = o' := by
  refine ⟨fun h => ?_, congrArg Opcode.byte⟩
  have hcode : opcodeOf o.byte = opcodeOf o'.byte := congrArg opcodeOf h
  simpa using hcode

/-- The constraint of DIVREM, which no mask can say, in terms of the word's opcode byte. -/
theorem divrem_constraint_iff {w : CommandWord} {o : Opcode} (hop : fieldOp w = o.byte) :
    (o = .divrem → fieldRd w ≠ fieldRc w) ↔ ¬ (fieldOp w = 0x16 ∧ fieldRd w = fieldRc w) := by
  have hbyte : fieldOp w = 0x16 ↔ o = .divrem := by
    rw [hop]
    exact byte_eq_iff o .divrem
  rw [hbyte, not_and]

/-- Settles O14: matching some row is passing all checks of `decode` but the one for DIVREM. -/
theorem commandsAreTheTableRows : Obligations.CommandsAreTheTableRows := by
  intro w
  rw [exists_row_iff fun r => w &&& r.2 = r.1]
  constructor
  · rintro ⟨i, h⟩
    obtain ⟨o, hop, hzero, hmulw, hdivrem, -⟩ := decode_command_cases h
    exact ⟨⟨o, (matches_row_iff w o).mpr ⟨hop, hzero, hmulw⟩⟩, (divrem_constraint_iff hop).mp hdivrem⟩
  · rintro ⟨⟨o, hmatch⟩, hdivrem⟩
    obtain ⟨hop, hzero, hmulw⟩ := (matches_row_iff w o).mp hmatch
    exact ⟨o.command w, decode_of_opcode hop hzero hmulw ((divrem_constraint_iff hop).mpr hdivrem)⟩

end Sys2Proof
end

section
/-! PROOFS. The results of the pseudo-instructions (30_encoding.md R102). An expansion is a fixed sequence of commands that each
write one register, so the state it ends in is known and its registers are read off; LI is an induction over its chunks. -/

namespace Sys2Proof.Machine

/-! ## The fixed expansions -/

section
variable (s : State) (rd ra rt : Reg)

theorem execAll_clr : ∃ t, execAll (Pseudo.expand (.clr rd)) s = .next t ∧ t.r rd = 0 :=
  ⟨_, rfl, by simp [immValue]⟩

theorem execAll_setmax : ∃ t, execAll (Pseudo.expand (.setmax rd)) s = .next t ∧ t.r rd = 2 ^ s.params.bits - 1 := by
  have hmax : 2 ^ s.params.bits - 1 < 2 ^ s.params.bits := Nat.sub_lt (Nat.two_pow_pos _) Nat.one_pos
  exact ⟨_, rfl, by simp [immValue, Nat.mod_eq_of_lt hmax]⟩

variable {rd rt} (hne : rt ≠ rd)
include hne

theorem execAll_inc :
    ∃ t, execAll (Pseudo.expand (.inc rd rt)) s = .next t ∧ t.r rd = (s.r rd + 1) % 2 ^ s.params.bits :=
  ⟨_, rfl, by simp [immValue, State.r_writeReg, hne.symm]⟩

theorem execAll_dec :
    ∃ t, execAll (Pseudo.expand (.dec rd rt)) s = .next t ∧
      (t.r rd : Int) = ((s.r rd : Int) - 1) % (2 ^ s.params.bits : Int) := by
  refine ⟨_, rfl, ?_⟩
  simp [immValue, State.r_writeReg, hne.symm, subMod_cast, Nat.mod_eq_of_lt (subMod_lt _ _ _)]

theorem execAll_neg :
    ∃ t, execAll (Pseudo.expand (.neg rd ra rt)) s = .next t ∧
      t.r rd = (2 ^ s.params.bits - s.r ra) % 2 ^ s.params.bits := by
  refine ⟨_, rfl, ?_⟩
  have hlt := s.r_lt ra
  have hnot : maxOf s.params.bits - s.r ra + 1 = 2 ^ s.params.bits - s.r ra := by
    unfold maxOf
    omega
  simp [immValue, State.r_writeReg, hne.symm, hnot]

end

/-! ## LI -/

theorem immValue_liChunk (v j : Nat) : immValue (liChunk v j) = v / 2 ^ (16 * j) % 2 ^ 16 :=
  BitVec.toNat_ofNat _ 16

theorem div_chunk_succ (v j : Nat) : v / 2 ^ (16 * (j + 1)) = v / 2 ^ (16 * j) / 2 ^ 16 := by
  rw [Nat.div_div_eq_div_mul, ← pow_add, Nat.mul_succ]

/-- A number is its low chunk put under the rest of it. -/
theorem shift_or_chunk (q : Nat) : q / 2 ^ 16 * 2 ^ 16 ||| q % 2 ^ 16 = q := by
  rw [mul_comm, ← Nat.two_pow_add_eq_or_of_lt (Nat.mod_lt _ (by decide)), Nat.div_add_mod]

/-- All of a number stands in its first `m` chunks. -/
theorem lt_two_pow_liChunks (v : Nat) : v < 2 ^ (16 * liChunks v) := by
  refine lt_of_lt_of_le (lt_two_pow_bitlen v) (Nat.pow_le_pow_right (by decide) ?_)
  unfold liChunks
  omega

/-- The first LDI loads all of the value above the chunks still to come. -/
theorem immValue_top_liChunk (v : Nat) :
    immValue (liChunk v (liChunks v - 1)) = v / 2 ^ (16 * (liChunks v - 1)) := by
  have hpos : 0 < liChunks v := Nat.le_max_left 1 _
  have hlt : v / 2 ^ (16 * (liChunks v - 1)) / 2 ^ 16 = 0 := by
    rw [← div_chunk_succ, Nat.sub_add_cancel hpos, Nat.div_eq_of_lt (lt_two_pow_liChunks v)]
  rw [immValue_liChunk]
  omega

/-- The three commands LI has for a chunk put that chunk under the value of `rd`. -/
theorem execAll_chunk {rd rt : Reg} (hne : rt ≠ rd) (s : State) (c : BitVec 16) (hfits : s.r rd * 2 ^ 16 < 2 ^ s.params.bits) :
    ∃ t, (∀ is, execAll (.shli rd rd 16 :: .ldi rt c :: .or rd rd rt :: is) s = execAll is t) ∧
      t.params = s.params ∧ t.r rd = s.r rd * 2 ^ 16 ||| immValue c := by
  refine ⟨_, fun _ => rfl, rfl, ?_⟩
  have himm := immValue_lt s c
  have hshift : shiftLeft s.params.bits (s.r rd) (immValue 16) = s.r rd * 2 ^ 16 :=
    (shiftLeft_eq _ _ _).trans (Nat.mod_eq_of_lt hfits)
  simp only [State.succeed_r, State.r_writeReg_same, State.r_writeReg_of_ne _ _ _ _ hne.symm, State.succeed_params,
    State.writeReg_params, hshift, Nat.mod_eq_of_lt hfits, Nat.mod_eq_of_lt himm,
    Nat.mod_eq_of_lt (Nat.or_lt_two_pow hfits himm)]

/-- While `rd` holds the chunks of `v` from `j` on, the commands for the chunks below `j` bring it to `v`. -/
theorem execAll_liTail {rd rt : Reg} (hne : rt ≠ rd) (v j : Nat) (s : State) (hv : v < 2 ^ s.params.bits)
    (hrd : s.r rd = v / 2 ^ (16 * j)) : ∃ t, execAll (liTail rd rt v j) s = .next t ∧ t.r rd = v := by
  induction j generalizing s with
  | zero => exact ⟨s, rfl, by simpa using hrd⟩
  | succ j ih =>
    rw [div_chunk_succ] at hrd
    have hfits : s.r rd * 2 ^ 16 < 2 ^ s.params.bits := by
      calc s.r rd * 2 ^ 16 = v / 2 ^ (16 * j) / 2 ^ 16 * 2 ^ 16 := by rw [hrd]
        _ ≤ v / 2 ^ (16 * j) := Nat.div_mul_le_self _ _
        _ ≤ v := Nat.div_le_self _ _
        _ < 2 ^ s.params.bits := hv
    obtain ⟨t, hrun, hparams, ht⟩ := execAll_chunk hne s (liChunk v j) hfits
    rw [hrd, immValue_liChunk, shift_or_chunk] at ht
    rw [liTail, hrun]
    exact ih t (hparams ▸ hv) ht

theorem execAll_li {rd rt : Reg} (hne : rt ≠ rd) (s : State) {v : Nat} (hv : v < 2 ^ s.params.bits) :
    ∃ t, execAll (Pseudo.expand (.li rd rt v)) s = .next t ∧ t.r rd = v := by
  refine execAll_liTail hne v (liChunks v - 1) _ hv ?_
  rw [State.succeed_r, State.r_writeReg_same, Nat.mod_eq_of_lt (immValue_lt s _), immValue_top_liChunk]

/-- Settles O60: the results of the five fixed expansions and of LI. -/
theorem pseudoInstructionsGiveTheirResults : Obligations.PseudoInstructionsGiveTheirResults := by
  intro s rd ra rt v
  exact ⟨execAll_clr s rd, execAll_setmax s rd, execAll_inc s, execAll_dec s, execAll_neg s ra,
    fun hne hv => execAll_li hne s hv⟩

end Sys2Proof.Machine
end

section
/-! PROOFS. MOV and LDI (40_representation.md R120, R121). -/

namespace Sys2Proof.Machine

theorem exec_mov (s : State) (rd ra : Reg) :
    ∃ t, exec (.mov rd ra) s = .next t ∧ t.r rd = s.r ra ∧ Safety.WritesOnly [rd] s t :=
  done_writeReg s rd (s.r ra) (s.r_lt ra)

/-- An immediate of 16 bits fits a register of every instance, so LDI loads it unchanged. -/
theorem exec_ldi (s : State) (rd : Reg) (imm16 : BitVec 16) :
    ∃ t, exec (.ldi rd imm16) s = .next t ∧ t.r rd = imm16.toNat ∧ Safety.WritesOnly [rd] s t :=
  done_writeReg s rd (immValue imm16) (immValue_lt s imm16)

/-- Settles O16: neither opcode has a constraint of R97, and both values fit the register they are written to. -/
theorem movCopiesAndLdiLoadsTheUnsignedImmediate : Obligations.MovCopiesAndLdiLoadsTheUnsignedImmediate :=
  ⟨⟨decodesAs .mov nofun nofun (fun w => .mov (fieldRd w) (fieldRa w)) fun _ => rfl, exec_mov⟩,
    ⟨decodesAs .ldi nofun nofun (fun w => .ldi (fieldRd w) (fieldImm16 w)) fun _ => rfl, exec_ldi⟩⟩

end Sys2Proof.Machine
end

section
/-! PROOFS. The core arithmetic commands (41_arith.md R131 to R142). Each command has one lemma about its result and its
frame for every choice of operands; the laws of R142 chain these lemmas. -/

namespace Sys2Proof

/-! ## Words of the commands R97 constrains -/

/-- A word of opcode `o` decodes exactly when its zero fields are 0 and its operands are well formed, and is IllegalCommand
otherwise (30_encoding.md R97, R98). -/
theorem decodes_or_raises {w : CommandWord} {o : Opcode} {legal : Prop} (hop : fieldOp w = o.byte)
    (hlegal : legal ↔ w &&& o.format.zeroBits = 0 ∧ (o.command w).wellFormed = true) :
    (legal → decode w = .command (o.command w)) ∧
      (¬ legal → ∀ s, ∃ t, Machine.runCommand w s = .next t ∧ Safety.Raises .illegalCommand s t) := by
  constructor
  · intro h
    obtain ⟨hzero, hwf⟩ := hlegal.mp h
    exact (decode_eq_command_iff w _).mpr ⟨o, hop, hzero, rfl, hwf⟩
  · intro h s
    cases hdecode : decode w with
    | command i =>
      obtain ⟨o', hop', hzero, rfl, hwf⟩ := (decode_eq_command_iff w i).mp hdecode
      obtain rfl : o' = o := (byte_eq_iff o' o).mp (hop'.symm.trans hop)
      exact absurd (hlegal.mpr ⟨hzero, hwf⟩) h
    | illegal why =>
      rw [Machine.runCommand_of_illegal hdecode]
      exact Machine.fail_raises s .illegalCommand

/-- The mask of MULW asks for the zero fields of its format and for an even destination. -/
theorem mulw_legal_iff (w : CommandWord) :
    w &&& 0x00100FFF = 0 ↔ w &&& Opcode.mulw.format.zeroBits = 0 ∧ (Opcode.mulw.command w).wellFormed = true :=
  (and_clearBits_eq_zero_iff w .mulw).trans (and_congr_right' (by simp [wellFormed_command_iff]))

theorem divrem_legal_iff (w : CommandWord) :
    w &&& 0x000000FF = 0 ∧ fieldRd w ≠ fieldRc w ↔
      w &&& Opcode.divrem.format.zeroBits = 0 ∧ (Opcode.divrem.command w).wellFormed = true :=
  and_congr_right' (by simp [wellFormed_command_iff])

/-! ## Frames -/

theorem Safety.WritesOnly.r_of_ne {s t : Machine.State} {rd i : Reg} (h : WritesOnly [rd] s t) (hi : i ≠ rd) :
    t.r i = s.r i :=
  h.regs i (List.mem_singleton.not.mpr hi)

end Sys2Proof

namespace Sys2Proof.Machine

open Sys2Proof.Safety

/-- Writing two registers and completing leaves everything else alone. -/
theorem writeReg_writeReg_writesOnly (s : State) (i j : Reg) (v x : Nat) :
    WritesOnly [i, j] s ((s.writeReg i v).writeReg j x).succeed where
  params := rfl
  regs k h := by
    obtain ⟨hi, hj⟩ : k ≠ i ∧ k ≠ j := by simpa using h
    simp [State.r_writeReg, hi, hj]
  pending := rfl
  response := rfl
  txt := rfl
  eng := rfl
  status := rfl

/-! ## ADD, MUL and SUB (R131, R135, R133) -/

section
variable (s : State) (rd ra rb : Reg)

theorem exec_add :
    ∃ t, exec (.add rd ra rb) s = .next t ∧ t.r rd = (s.r ra + s.r rb) % 2 ^ s.params.bits ∧ WritesOnly [rd] s t :=
  done_writeReg s rd (trunc s.params.bits (s.r ra + s.r rb)) (Nat.mod_lt _ (Nat.two_pow_pos _))

theorem exec_mul :
    ∃ t, exec (.mul rd ra rb) s = .next t ∧ t.r rd = (s.r ra * s.r rb) % 2 ^ s.params.bits ∧ WritesOnly [rd] s t :=
  done_writeReg s rd (trunc s.params.bits (s.r ra * s.r rb)) (Nat.mod_lt _ (Nat.two_pow_pos _))

theorem exec_sub :
    ∃ t, exec (.sub rd ra rb) s = .next t ∧
      (t.r rd : Int) = ((s.r ra : Int) - (s.r rb : Int)) % (2 ^ s.params.bits : Int) ∧ WritesOnly [rd] s t := by
  obtain ⟨t, hexec, hrd, hframe⟩ := done_writeReg s rd _ (subMod_lt s.params.bits (s.r ra) (s.r rb))
  exact ⟨t, hexec, by rw [hrd, subMod_cast], hframe⟩

end

/-- Settles O17: neither opcode has a constraint of R97, and a reduced value fits its register. -/
theorem addAndMulWriteTruncatedResults : Obligations.AddAndMulWriteTruncatedResults :=
  ⟨⟨decodesAs .add nofun nofun (fun w => .add (fieldRd w) (fieldRa w) (fieldRb w)) fun _ => rfl, exec_add⟩,
    ⟨decodesAs .mul nofun nofun (fun w => .mul (fieldRd w) (fieldRa w) (fieldRb w)) fun _ => rfl, exec_mul⟩⟩

/-- Settles O18: the value written is the residue of the integer difference. -/
theorem subWritesTheDifferenceModulo : Obligations.SubWritesTheDifferenceModulo :=
  ⟨decodesAs .sub nofun nofun (fun w => .sub (fieldRd w) (fieldRa w) (fieldRb w)) fun _ => rfl, exec_sub⟩

/-! ## MULW (R136) -/

/-- The exact product of two registers has a high half that fits a register. -/
theorem mul_div_two_pow_lt (s : State) (ra rb : Reg) : s.r ra * s.r rb / 2 ^ s.params.bits < 2 ^ s.params.bits :=
  Nat.div_lt_of_lt_mul (Nat.mul_lt_mul'' (s.r_lt ra) (s.r_lt rb))

section
variable (s : State) {rd : Reg} (ra rb : Reg)

theorem exec_mulw_even (heven : rd.val % 2 = 0) :
    ∃ t, exec (.mulw rd ra rb) s = .next t ∧ t.r rd = (s.r ra * s.r rb) % 2 ^ s.params.bits ∧
      t.r (rd + 1) = (s.r ra * s.r rb) / 2 ^ s.params.bits ∧ WritesOnly [rd, rd + 1] s t := by
  refine ⟨(s.writePair rd (s.r ra * s.r rb)).succeed, if_pos (beq_iff_eq.mpr heven), ?_, ?_,
    writeReg_writeReg_writesOnly s rd (rd + 1) _ _⟩
  · simp
  · simp [Nat.mod_eq_of_lt (mul_div_two_pow_lt s ra rb)]

theorem exec_mulw_odd (hodd : rd.val % 2 = 1) :
    ∃ t, exec (.mulw rd ra rb) s = .next t ∧ Raises .illegalCommand s t := by
  have hnot : ¬ Reg.isEven rd = true := by simp [Reg.isEven, hodd]
  exact ⟨_, if_neg hnot, raise_raises s .illegalCommand⟩

end

/-- Settles O19: the mask of MULW is its format and the constraint of R97 together. -/
theorem mulwWritesTheExactProductToThePair : Obligations.MulwWritesTheExactProductToThePair :=
  ⟨fun w hop => decodes_or_raises (o := .mulw) hop (mulw_legal_iff w),
    fun s _ ra rb => ⟨exec_mulw_even s ra rb, exec_mulw_odd s ra rb⟩⟩

/-! ## DIV, REM and DIVREM (R138 to R140) -/

section
variable (s : State) (rd ra : Reg) {rb : Reg}

theorem exec_div (hd : s.r rb ≠ 0) :
    ∃ t, exec (.div rd ra rb) s = .next t ∧ t.r rd = s.r ra / s.r rb ∧ WritesOnly [rd] s t := by
  obtain ⟨t, hdone, ht⟩ := done_writeReg s rd (s.r ra / s.r rb) (lt_of_le_of_lt (Nat.div_le_self _ _) (s.r_lt ra))
  exact ⟨t, (if_neg hd).trans hdone, ht⟩

theorem exec_div_zero (hd : s.r rb = 0) : ∃ t, exec (.div rd ra rb) s = .next t ∧ Raises .divisionByZero s t :=
  ⟨_, if_pos hd, raise_raises s .divisionByZero⟩

theorem exec_rem (hd : s.r rb ≠ 0) :
    ∃ t, exec (.rem rd ra rb) s = .next t ∧ t.r rd = s.r ra % s.r rb ∧ WritesOnly [rd] s t := by
  obtain ⟨t, hdone, ht⟩ := done_writeReg s rd (s.r ra % s.r rb) (lt_of_le_of_lt (Nat.mod_le _ _) (s.r_lt ra))
  exact ⟨t, (if_neg hd).trans hdone, ht⟩

theorem exec_rem_zero (hd : s.r rb = 0) : ∃ t, exec (.rem rd ra rb) s = .next t ∧ Raises .divisionByZero s t :=
  ⟨_, if_pos hd, raise_raises s .divisionByZero⟩

variable {rd} {rc : Reg}

theorem exec_divrem (hne : rd ≠ rc) (hd : s.r rb ≠ 0) :
    ∃ t, exec (.divrem rd rc ra rb) s = .next t ∧ t.r rd = s.r ra / s.r rb ∧ t.r rc = s.r ra % s.r rb ∧
      WritesOnly [rd, rc] s t := by
  have hq : s.r ra / s.r rb < 2 ^ s.params.bits := lt_of_le_of_lt (Nat.div_le_self _ _) (s.r_lt ra)
  have hm : s.r ra % s.r rb < 2 ^ s.params.bits := lt_of_le_of_lt (Nat.mod_le _ _) (s.r_lt ra)
  refine ⟨_, (if_neg hne).trans (if_neg hd), ?_, ?_, writeReg_writeReg_writesOnly s rd rc _ _⟩
  · simp [State.r_writeReg_of_ne _ _ _ _ hne, Nat.mod_eq_of_lt hq]
  · simp [Nat.mod_eq_of_lt hm]

theorem exec_divrem_zero (hne : rd ≠ rc) (hd : s.r rb = 0) :
    ∃ t, exec (.divrem rd rc ra rb) s = .next t ∧ Raises .divisionByZero s t :=
  ⟨_, (if_neg hne).trans (if_pos hd), raise_raises s .divisionByZero⟩

theorem exec_divrem_same (rb : Reg) (h : rd = rc) :
    ∃ t, exec (.divrem rd rc ra rb) s = .next t ∧ Raises .illegalCommand s t :=
  ⟨_, if_pos h, raise_raises s .illegalCommand⟩

end

/-- Settles O20: a quotient and a remainder are at most the dividend, so they fit; the divisor is tested before a write. -/
theorem divAndRemWriteTheirResultOrRaise : Obligations.DivAndRemWriteTheirResultOrRaise :=
  ⟨⟨decodesAs .div nofun nofun (fun w => .div (fieldRd w) (fieldRa w) (fieldRb w)) fun _ => rfl,
      fun s rd ra _ => ⟨exec_div s rd ra, exec_div_zero s rd ra⟩⟩,
    ⟨decodesAs .rem nofun nofun (fun w => .rem (fieldRd w) (fieldRa w) (fieldRb w)) fun _ => rfl,
      fun s rd ra _ => ⟨exec_rem s rd ra, exec_rem_zero s rd ra⟩⟩⟩

/-- Settles O21: the constraint of R97 makes the destinations differ, so both results of the old values stand. -/
theorem divremWritesQuotientAndRemainder : Obligations.DivremWritesQuotientAndRemainder := by
  constructor
  · intro w hop
    obtain ⟨hdecode, hraise⟩ := decodes_or_raises (o := .divrem) hop (divrem_legal_iff w)
    refine ⟨hdecode, fun h => hraise ?_⟩
    rintro ⟨hzero, hne⟩
    exact h.elim (absurd hzero) hne
  · intro s rd rc ra rb
    exact ⟨fun ⟨hne, hd⟩ => exec_divrem s ra hne hd, fun ⟨hne, hd⟩ => exec_divrem_zero s ra hne hd,
      exec_divrem_same s ra rb⟩

/-! ## The laws (R142) -/

/-- A command that writes `f (r[ra]) (r[rb]) mod 2^BITS`, from the old values for every choice of operands, and nothing else. -/
def ComputesModulo (f : Nat → Nat → Nat) (command : Reg → Reg → Reg → Instr) : Prop :=
  ∀ (s : State) (rd ra rb : Reg), ∃ t, exec (command rd ra rb) s = .next t ∧
    t.r rd = f (s.r ra) (s.r rb) % 2 ^ s.params.bits ∧ WritesOnly [rd] s t

theorem computesModulo_add : ComputesModulo HAdd.hAdd .add := exec_add

theorem computesModulo_mul : ComputesModulo HMul.hMul .mul := exec_mul

/-- A command that computes an operation modulo `2^BITS` is associative if the reduced operation is. -/
theorem ComputesModulo.assoc {f : Nat → Nat → Nat} {command : Reg → Reg → Reg → Instr} (h : ComputesModulo f command)
    (hassoc : ∀ a b c m, f (f a b % m) c % m = f a (f b c % m) % m) (s : State) {rd x z : Reg} (y : Reg)
    (hx : rd ≠ x) (hz : rd ≠ z) :
    ∃ t u t' u', exec (command rd x y) s = .next t ∧ exec (command rd rd z) t = .next u ∧
      exec (command rd y z) s = .next t' ∧ exec (command rd x rd) t' = .next u' ∧ u.r rd = u'.r rd := by
  obtain ⟨t, ht, htrd, htframe⟩ := h s rd x y
  obtain ⟨u, hu, hurd, -⟩ := h t rd rd z
  obtain ⟨t', ht', htrd', htframe'⟩ := h s rd y z
  obtain ⟨u', hu', hurd', -⟩ := h t' rd x rd
  refine ⟨t, u, t', u', ht, hu, ht', hu', ?_⟩
  rw [hurd, htrd, htframe.r_of_ne hz.symm, htframe.params, hurd', htrd', htframe'.r_of_ne hx.symm, htframe'.params]
  exact hassoc _ _ _ _

theorem exec_add_comm (s : State) (rd x y : Reg) :
    ∃ t t', exec (.add rd x y) s = .next t ∧ exec (.add rd y x) s = .next t' ∧ t.r rd = t'.r rd := by
  obtain ⟨t, ht, htrd, -⟩ := exec_add s rd x y
  obtain ⟨t', ht', htrd', -⟩ := exec_add s rd y x
  exact ⟨t, t', ht, ht', by rw [htrd, htrd', Nat.add_comm]⟩

/-- From a quotient and a remainder by `r[d]`, MUL and ADD compute the dividend; it fits, so nothing is truncated. -/
theorem exec_mul_add_recombine (s : State) {q m d : Reg} (hqm : q ≠ m) {a : Nat} (ha : a < 2 ^ s.params.bits)
    (hq : s.r q = a / s.r d) (hm : s.r m = a % s.r d) :
    ∃ t u, exec (.mul q q d) s = .next t ∧ exec (.add q q m) t = .next u ∧ u.r q = a := by
  obtain ⟨t, ht, htq, htframe⟩ := exec_mul s q q d
  obtain ⟨u, hu, huq, -⟩ := exec_add t q q m
  refine ⟨t, u, ht, hu, ?_⟩
  calc u.r q = (s.r q * s.r d % 2 ^ s.params.bits + s.r m) % 2 ^ s.params.bits := by
        rw [huq, htq, htframe.r_of_ne hqm.symm, htframe.params]
    _ = (a / s.r d * s.r d + a % s.r d) % 2 ^ s.params.bits := by rw [Nat.mod_add_mod, hq, hm]
    _ = a := by rw [Nat.div_add_mod', Nat.mod_eq_of_lt ha]

theorem exec_div_rem_recombine (s : State) {q m a d : Reg} (hqm : q ≠ m) (hqa : q ≠ a) (hqd : q ≠ d) (hmd : m ≠ d)
    (hd : s.r d ≠ 0) :
    ∃ t u v w, exec (.div q a d) s = .next t ∧ exec (.rem m a d) t = .next u ∧ u.r m < s.r d ∧
      exec (.mul q q d) u = .next v ∧ exec (.add q q m) v = .next w ∧ w.r q = s.r a := by
  obtain ⟨t, ht, htq, htframe⟩ := exec_div s q a hd
  have htd : t.r d = s.r d := htframe.r_of_ne hqd.symm
  obtain ⟨u, hu, hum, huframe⟩ := exec_rem t m a (htd ▸ hd)
  have hud : u.r d = s.r d := (huframe.r_of_ne hmd.symm).trans htd
  rw [htd, htframe.r_of_ne hqa.symm] at hum
  have huq : u.r q = s.r a / s.r d := (huframe.r_of_ne hqm).trans htq
  have hfits : s.r a < 2 ^ u.params.bits := by
    rw [huframe.params, htframe.params]
    exact s.r_lt a
  obtain ⟨v, w, hv, hw, hwq⟩ := exec_mul_add_recombine u hqm hfits (hud ▸ huq) (hud ▸ hum)
  exact ⟨t, u, v, w, ht, hu, hum ▸ Nat.mod_lt _ (Nat.pos_of_ne_zero hd), hv, hw, hwq⟩

theorem exec_divrem_recombine (s : State) {q m d : Reg} (a : Reg) (hqm : q ≠ m) (hqd : q ≠ d) (hmd : m ≠ d)
    (hd : s.r d ≠ 0) :
    ∃ t u v, exec (.divrem q m a d) s = .next t ∧ t.r m < s.r d ∧ exec (.mul q q d) t = .next u ∧
      exec (.add q q m) u = .next v ∧ v.r q = s.r a := by
  obtain ⟨t, ht, htq, htm, htframe⟩ := exec_divrem s a hqm hd
  have htd : t.r d = s.r d := htframe.regs d (by simp [hqd.symm, hmd.symm])
  have hfits : s.r a < 2 ^ t.params.bits := by
    rw [htframe.params]
    exact s.r_lt a
  obtain ⟨u, v, hu, hv, hvq⟩ := exec_mul_add_recombine t hqm hfits (htd ▸ htq) (htd ▸ htm)
  exact ⟨t, u, v, ht, htm ▸ Nat.mod_lt _ (Nat.pos_of_ne_zero hd), hu, hv, hvq⟩

/-- Settles O22: reducing early does not change a sum or a product modulo `2^BITS`, and the dividend of a division fits. -/
theorem arithmeticLawsHold : Obligations.ArithmeticLawsHold := by
  refine ⟨fun s _ _ y _ => computesModulo_add.assoc (fun a b c m => ?_) s y,
    fun s _ _ y _ => computesModulo_mul.assoc (fun a b c m => ?_) s y, exec_add_comm,
    fun s _ _ _ _ => exec_div_rem_recombine s, fun s _ _ a _ => exec_divrem_recombine s a⟩
  · rw [Nat.mod_add_mod, Nat.add_mod_mod, Nat.add_assoc]
  · rw [Nat.mod_mul_mod, Nat.mul_mod_mod, Nat.mul_assoc]

end Sys2Proof.Machine
end

section
/-! PROOFS. The limb-level engines compute the normative values (41_arith.md R130, R132, R134, R137). Each chain is an induction
over its limbs with the carry or borrow left open; the multiplier is a product of two sums over limbs. -/

namespace Sys2Proof.Machine

/-! ## The carry chain (R130) -/

/-- The lowest limb of a value, and the limbs of the rest. -/
theorem limbsOf_succ (w n v : Nat) : limbsOf w (n + 1) v = v % 2 ^ w :: limbsOf w n (v / 2 ^ w) := by
  simp only [limbsOf, List.range_succ_eq_map, List.map_cons, List.map_map, Function.comp_def, limb_succ]
  simp [limb]

theorem ofLimbs_carryChain (w n c x y : Nat) :
    ofLimbs w (carryChain w c (limbsOf w n x) (limbsOf w n y)).1 = (x + y + c) % 2 ^ (n * w) := by
  induction n generalizing c x y with
  | zero => simp [limbsOf, carryChain, ofLimbs, Nat.mod_one]
  | succ n ih =>
    have hsplit : x + y + c = x % 2 ^ w + y % 2 ^ w + c + 2 ^ w * (x / 2 ^ w + y / 2 ^ w) := by
      have hx := Nat.mod_add_div x (2 ^ w)
      have hy := Nat.mod_add_div y (2 ^ w)
      rw [mul_add]
      omega
    have hlow : (x % 2 ^ w + y % 2 ^ w + c) % 2 ^ w = (x + y + c) % 2 ^ w := by
      rw [hsplit, Nat.add_mul_mod_self_left]
    have hhigh : x / 2 ^ w + y / 2 ^ w + (x % 2 ^ w + y % 2 ^ w + c) / 2 ^ w = (x + y + c) / 2 ^ w := by
      rw [hsplit, Nat.add_mul_div_left _ _ (Nat.two_pow_pos w), add_comm]
    rw [limbsOf_succ, limbsOf_succ, carryChain, ofLimbs, ih, hlow, hhigh, Nat.succ_mul, Nat.add_comm (n * w), pow_add,
      Nat.mod_mul]

/-- Settles O54: the chain with carry in 0. -/
theorem carryChainComputesTheSum : Obligations.CarryChainComputesTheSum := by
  intro w n x y _ _
  exact ofLimbs_carryChain w n 0 x y

/-! ## The borrow chain (R132) -/

/-- One limb of the chain: the result limb and the borrow out make up the difference of the limbs with the borrow in. -/
theorem borrowChain_cons {w b x y : Nat} (hb : b ≤ 1) (hx : x < 2 ^ w) (hy : y < 2 ^ w) (xs ys : List Nat) :
    ∃ z b' : Nat, (borrowChain w b (x :: xs) (y :: ys)).1 = z :: (borrowChain w b' xs ys).1 ∧
      z < 2 ^ w ∧ b' ≤ 1 ∧ (x : Int) - y - b = z - 2 ^ w * b' := by
  by_cases hneg : (x : Int) - y - b < 0
  · refine ⟨((x : Int) - y - b + 2 ^ w).toNat, 1, ?_, ?_, le_rfl, ?_⟩
    · simp [borrowChain, hneg]
    · zify at *
      omega
    · zify at *
      omega
  · refine ⟨((x : Int) - y - b).toNat, 0, ?_, ?_, Nat.zero_le 1, ?_⟩
    · simp [borrowChain, hneg]
    · omega
    · omega

/-- The residue modulo a product, for a number given by its lowest digit. -/
theorem emod_mul_of_digit {z p : Int} (m : Int) (h0 : 0 ≤ z) (hz : z < p) (q : Int) :
    (z + p * q) % (p * m) = z + p * (q % m) := by
  have hp : 0 < p := lt_of_le_of_lt h0 hz
  have hdiv : (z + p * q) / p = q := by
    rw [Int.add_mul_ediv_left _ _ hp.ne', Int.ediv_eq_zero_of_lt h0 hz, zero_add]
  rw [Int.emod_def, ← Int.ediv_ediv_of_nonneg hp.le, hdiv, Int.emod_def]
  ring

theorem ofLimbs_borrowChain (w n : Nat) {b : Nat} (hb : b ≤ 1) (x y : Nat) :
    (ofLimbs w (borrowChain w b (limbsOf w n x) (limbsOf w n y)).1 : Int) = ((x : Int) - y - b) % 2 ^ (n * w) := by
  induction n generalizing b x y with
  | zero => simp [limbsOf, borrowChain, ofLimbs]
  | succ n ih =>
    obtain ⟨z, b', hchain, hz, hb', hdiff⟩ := borrowChain_cons hb (Nat.mod_lt x (Nat.two_pow_pos w))
      (Nat.mod_lt y (Nat.two_pow_pos w)) (limbsOf w n (x / 2 ^ w)) (limbsOf w n (y / 2 ^ w))
    have hsplit : (x : Int) - y - b = z + 2 ^ w * (((x / 2 ^ w : Nat) : Int) - (y / 2 ^ w : Nat) - b') := by
      have hx : ((x % 2 ^ w : Nat) : Int) + 2 ^ w * (x / 2 ^ w : Nat) = x := mod_cast Nat.mod_add_div x (2 ^ w)
      have hy : ((y % 2 ^ w : Nat) : Int) + 2 ^ w * (y / 2 ^ w : Nat) = y := mod_cast Nat.mod_add_div y (2 ^ w)
      linarith
    rw [limbsOf_succ, limbsOf_succ, hchain, ofLimbs, Nat.cast_add, Nat.cast_mul, ih hb', hsplit, Nat.succ_mul,
      Nat.add_comm (n * w), pow_add, emod_mul_of_digit _ (Int.natCast_nonneg z) (mod_cast hz)]
    push_cast
    rfl

/-- Settles O55: the chain with borrow in 0. -/
theorem borrowChainComputesTheDifference : Obligations.BorrowChainComputesTheDifference := by
  intro w n x y _ _
  rw [subtractor, ofLimbs_borrowChain w n (Nat.zero_le 1) x y, Nat.cast_zero, sub_zero]

/-! ## The multiplier (R134) -/

/-- `Σ limb(v, j) * 2^(j*w)` is the low `n * w` bits of `v` (00_scope.md R12). -/
theorem sum_limb_mul (w n v : Nat) : ∑ j ∈ Finset.range n, limb w v j * 2 ^ (j * w) = v % 2 ^ (n * w) := by
  induction n with
  | zero => simp [Nat.mod_one]
  | succ n ih => rw [Finset.sum_range_succ, ih, Nat.succ_mul, pow_add, Nat.mod_mul, limb, mul_comm (v / _ % _)]

/-- An accumulator that adds `f j` in round `j` ends with the sum. -/
theorem foldl_range_add (f : Nat → Nat) (n acc : Nat) :
    (List.range n).foldl (fun acc j => acc + f j) acc = acc + ∑ j ∈ Finset.range n, f j := by
  induction n with
  | zero => rfl
  | succ n ih => rw [List.range_succ, List.foldl_append, ih, Finset.sum_range_succ, ← add_assoc, List.foldl_cons, List.foldl_nil]

/-- The partial product of limb `i` of `x` and limb `j` of `y`, at its place. -/
def partialProduct (w x y i j : Nat) : Nat := limb w x i * limb w y j * 2 ^ ((i + j) * w)

/-- The partial products of limb `i` of `x` with the lowest `m` limbs of `y`. -/
def productRow (w x y m i : Nat) : Nat := ∑ j ∈ Finset.range m, partialProduct w x y i j

/-- The inner loop of the multiplier adds a row. -/
theorem foldl_partialProduct (w x y i m acc : Nat) :
    (List.range m).foldl (fun acc j => acc + limb w x i * limb w y j * 2 ^ ((i + j) * w)) acc =
      acc + productRow w x y m i :=
  foldl_range_add (partialProduct w x y i) m acc

theorem multiplier_eq_sum (w n x y : Nat) : multiplier w n x y = ∑ i ∈ Finset.range n, productRow w x y n i := by
  simp only [multiplier, foldl_partialProduct, foldl_range_add, Nat.zero_add]

theorem multiplierLow_eq_sum (w n x y : Nat) :
    multiplierLow w n x y = (∑ i ∈ Finset.range n, productRow w x y (n - i) i) % 2 ^ (n * w) := by
  simp only [multiplierLow, foldl_partialProduct, foldl_range_add, Nat.zero_add]

/-- A full row is one limb times the other factor. -/
theorem productRow_eq (w n x y i : Nat) :
    productRow w x y n i = limb w x i * 2 ^ (i * w) * (y % 2 ^ (n * w)) := by
  rw [← sum_limb_mul, Finset.mul_sum]
  refine Finset.sum_congr rfl fun j _ => ?_
  rw [partialProduct, Nat.add_mul, pow_add]
  ring

theorem multiplier_eq (w n x y : Nat) : multiplier w n x y = x % 2 ^ (n * w) * (y % 2 ^ (n * w)) := by
  simp only [multiplier_eq_sum, productRow_eq, ← Finset.sum_mul, sum_limb_mul]

/-- The skipped partial products of a row do not affect the low `n * w` bits. -/
theorem productRow_modEq (w n x y : Nat) {i : Nat} (hi : i < n) :
    productRow w x y (n - i) i ≡ productRow w x y n i [MOD 2 ^ (n * w)] := by
  have hskipped : 2 ^ (n * w) ∣ ∑ j ∈ Finset.range i, partialProduct w x y i (n - i + j) := by
    refine Finset.dvd_sum fun j _ => Dvd.dvd.mul_left (pow_dvd_pow 2 (Nat.mul_le_mul_right w ?_)) _
    omega
  have hrow : productRow w x y n i =
      productRow w x y (n - i) i + ∑ j ∈ Finset.range i, partialProduct w x y i (n - i + j) := by
    rw [productRow, productRow, ← Finset.sum_range_add, Nat.sub_add_cancel hi.le]
  rw [hrow]
  exact (Nat.modEq_zero_iff_dvd.mpr hskipped).symm.add_left (productRow w x y (n - i) i)

theorem multiplierLow_eq (w n x y : Nat) : multiplierLow w n x y = multiplier w n x y % 2 ^ (n * w) := by
  rw [multiplierLow_eq_sum, multiplier_eq_sum]
  exact Nat.ModEq.sum fun i hi => productRow_modEq w n x y (Finset.mem_range.mp hi)

/-- Settles O56: the full multiplier is a product of two sums of limbs, and skipping changes only multiples of `2^BITS`. -/
theorem multiplierComputesTheProduct : Obligations.MultiplierComputesTheProduct := by
  intro w n x y hx hy
  have hfull : multiplier w n x y = x * y := by rw [multiplier_eq, Nat.mod_eq_of_lt hx, Nat.mod_eq_of_lt hy]
  exact ⟨hfull, by rw [multiplierLow_eq, hfull]⟩

/-! ## The divider (R137) -/

/-- While the remainder is below the divisor, the loop divides the remainder followed by the bits still to come. -/
theorem divideBits_eq (x : Nat) {d : Nat} (i q : Nat) {rm : Nat} (hrm : rm < d) :
    divideBits x d i q rm = (q + (rm * 2 ^ i + x % 2 ^ i) / d, (rm * 2 ^ i + x % 2 ^ i) % d) := by
  have hd : 0 < d := Nat.zero_lt_of_lt hrm
  induction i generalizing q rm with
  | zero => simp [divideBits, Nat.mod_one, Nat.div_eq_of_lt hrm, Nat.mod_eq_of_lt hrm]
  | succ i ih =>
    have hbit : x / 2 ^ i % 2 < 2 := Nat.mod_lt _ Nat.two_pos
    have hnext : rm * 2 ^ (i + 1) + x % 2 ^ (i + 1) = (2 * rm + x / 2 ^ i % 2) * 2 ^ i + x % 2 ^ i := by
      rw [Nat.mod_pow_succ]
      ring
    rw [divideBits, hnext]
    by_cases hle : d ≤ 2 * rm + x / 2 ^ i % 2
    · have hsub : (2 * rm + x / 2 ^ i % 2) * 2 ^ i + x % 2 ^ i =
          (2 * rm + x / 2 ^ i % 2 - d) * 2 ^ i + x % 2 ^ i + d * 2 ^ i := by
        obtain ⟨r, hr⟩ := Nat.exists_eq_add_of_le hle
        rw [hr, Nat.add_sub_cancel_left]
        ring
      rw [if_pos hle, ih (q + 2 ^ i) (by omega), hsub, Nat.add_mul_div_left _ _ hd, Nat.add_mul_mod_self_left]
      congr 1
      omega
    · rw [if_neg hle, ih q (by omega)]

/-- Settles O57: the loop starts with remainder 0 and all bits of the dividend to come. -/
theorem dividerComputesQuotientAndRemainder : Obligations.DividerComputesQuotientAndRemainder := by
  intro bits x d hx hd
  rw [divider, divideBits_eq x bits 0 (Nat.pos_of_ne_zero hd), Nat.mod_eq_of_lt hx, Nat.zero_mul, Nat.zero_add, Nat.zero_add]

end Sys2Proof.Machine
end

section
/-! PROOFS. The bitwise operators and the shifts (42_bitwise_shift.md R160 to R169). A value that fits its register is written
unchanged, so each command comes down to the bits of one number, or to the shifter's value of R164. -/

namespace Sys2Proof.Machine

open Sys2Proof.Safety

/-! ## AND, OR, XOR and NOT (R160 to R163) -/

/-- The outcome of writing a value that fits, told by its bits. -/
theorem done_writeReg_testBit (s : State) (rd : Reg) {v : Nat} (hv : v < 2 ^ s.params.bits) {bit : Nat → Bool}
    (hbit : ∀ i, v.testBit i = bit i) :
    ∃ t, done (s.writeReg rd v) = .next t ∧ WritesOnly [rd] s t ∧ ∀ i, i < s.params.bits → (t.r rd).testBit i = bit i := by
  obtain ⟨t, hdone, hrd, hframe⟩ := done_writeReg s rd v hv
  exact ⟨t, hdone, hframe, fun i _ => by rw [hrd, hbit]⟩

/-- `MAX − x` inverts every bit of the width and has no other bit. -/
theorem testBit_max_sub {bits x : Nat} (hx : x < 2 ^ bits) (i : Nat) :
    (2 ^ bits - 1 - x).testBit i = (decide (i < bits) && !x.testBit i) := by
  rw [Nat.sub_sub, Nat.add_comm 1 x, Nat.testBit_two_pow_sub_succ hx]

theorem exec_not (s : State) (rd ra : Reg) :
    ∃ t, exec (.not rd ra) s = .next t ∧ t.r rd = 2 ^ s.params.bits - 1 - s.r ra ∧
      (∀ i, i < s.params.bits → (t.r rd).testBit i = !(s.r ra).testBit i) ∧ WritesOnly [rd] s t := by
  have hfits : maxOf s.params.bits - s.r ra < 2 ^ s.params.bits :=
    lt_of_le_of_lt (Nat.sub_le _ _) (Nat.sub_lt (Nat.two_pow_pos _) Nat.one_pos)
  obtain ⟨t, hexec, hrd, hframe⟩ := done_writeReg s rd _ hfits
  refine ⟨t, hexec, hrd, fun i hi => ?_, hframe⟩
  rw [hrd, testBit_max_sub (s.r_lt ra), decide_eq_true hi, Bool.true_and]

/-- Settles O23: no opcode of the three has a constraint of R97, and each operator keeps two values of the width in it. -/
theorem bitwiseCommandsActOnEveryBit : Obligations.BitwiseCommandsActOnEveryBit :=
  ⟨⟨decodesAs .and nofun nofun (fun w => .and (fieldRd w) (fieldRa w) (fieldRb w)) fun _ => rfl,
      fun s rd _ rb => done_writeReg_testBit s rd (Nat.and_lt_two_pow _ (s.r_lt rb)) (Nat.testBit_and _ _)⟩,
    ⟨decodesAs .or nofun nofun (fun w => .or (fieldRd w) (fieldRa w) (fieldRb w)) fun _ => rfl,
      fun s rd ra rb => done_writeReg_testBit s rd (Nat.or_lt_two_pow (s.r_lt ra) (s.r_lt rb)) (Nat.testBit_or _ _)⟩,
    ⟨decodesAs .xor nofun nofun (fun w => .xor (fieldRd w) (fieldRa w) (fieldRb w)) fun _ => rfl,
      fun s rd ra rb => done_writeReg_testBit s rd (Nat.xor_lt_two_pow (s.r_lt ra) (s.r_lt rb)) (Nat.testBit_xor _ _)⟩⟩

/-- Settles O24: `MAX − x` is the inverse of `x` within the width. -/
theorem notInvertsEveryBit : Obligations.NotInvertsEveryBit :=
  ⟨decodesAs .not nofun nofun (fun w => .not (fieldRd w) (fieldRa w)) fun _ => rfl, exec_not⟩

/-! ## The shifts (R165 to R168) -/

section
variable (s : State) (rd ra rb : Reg)

/-- A left shift by any count, from a register or an immediate. -/
theorem done_shiftLeft (count : Nat) :
    ∃ t, done (s.writeReg rd (shiftLeft s.params.bits (s.r ra) count)) = .next t ∧
      t.r rd = (s.r ra * 2 ^ count) % 2 ^ s.params.bits ∧ WritesOnly [rd] s t := by
  rw [shiftLeft_eq]
  exact done_writeReg s rd _ (Nat.mod_lt _ (Nat.two_pow_pos _))

/-- A right shift by any count, from a register or an immediate. -/
theorem done_shiftRight (count : Nat) :
    ∃ t, done (s.writeReg rd (shiftRight s.params.bits (s.r ra) count)) = .next t ∧
      t.r rd = s.r ra / 2 ^ count ∧ WritesOnly [rd] s t := by
  rw [shiftRight_eq _ _ _ (s.r_lt ra)]
  exact done_writeReg s rd _ (lt_of_le_of_lt (Nat.div_le_self _ _) (s.r_lt ra))

theorem exec_shl :
    ∃ t, exec (.shl rd ra rb) s = .next t ∧ t.r rd = (s.r ra * 2 ^ s.r rb) % 2 ^ s.params.bits ∧ WritesOnly [rd] s t :=
  done_shiftLeft s rd ra (s.r rb)

theorem exec_shr :
    ∃ t, exec (.shr rd ra rb) s = .next t ∧ t.r rd = s.r ra / 2 ^ s.r rb ∧ WritesOnly [rd] s t :=
  done_shiftRight s rd ra (s.r rb)

end

/-- Settles O25: the shifter's left value for the full count, whichever operand gives it. -/
theorem leftShiftsTruncateTheScaledValue : Obligations.LeftShiftsTruncateTheScaledValue :=
  ⟨⟨decodesAs .shl nofun nofun (fun w => .shl (fieldRd w) (fieldRa w) (fieldRb w)) fun _ => rfl, exec_shl⟩,
    ⟨decodesAs .shli nofun nofun (fun w => .shli (fieldRd w) (fieldRa w) (fieldImm16 w)) fun _ => rfl,
      fun s rd ra imm16 => done_shiftLeft s rd ra (immValue imm16)⟩⟩

/-- Settles O26: the shifter's right value for the full count, whichever operand gives it. -/
theorem rightShiftsDivideByThePower : Obligations.RightShiftsDivideByThePower :=
  ⟨⟨decodesAs .shr nofun nofun (fun w => .shr (fieldRd w) (fieldRa w) (fieldRb w)) fun _ => rfl, exec_shr⟩,
    ⟨decodesAs .shri nofun nofun (fun w => .shri (fieldRd w) (fieldRa w) (fieldImm16 w)) fun _ => rfl,
      fun s rd ra imm16 => done_shiftRight s rd ra (immValue imm16)⟩⟩

/-! ## The laws (R169) -/

/-- Shifting right and back left clears the bits below the count. -/
theorem div_mul_two_pow_mod (a : Nat) {bits count : Nat} (hcount : count ≤ bits) :
    a / 2 ^ count * 2 ^ count % 2 ^ bits = a &&& (2 ^ bits - 1 - (2 ^ count - 1)) := by
  have hmask : 2 ^ count - 1 < 2 ^ bits :=
    lt_of_lt_of_le (Nat.sub_lt (Nat.two_pow_pos _) Nat.one_pos) (Nat.pow_le_pow_right Nat.two_pos hcount)
  apply Nat.eq_of_testBit_eq
  intro i
  rw [Nat.testBit_mod_two_pow, Nat.testBit_mul_two_pow, Nat.testBit_div_two_pow, Nat.testBit_and, testBit_max_sub hmask,
    Nat.testBit_two_pow_sub_one]
  by_cases hi : i < count
  · simp [hi]
  · simp [hi, Nat.sub_add_cancel (Nat.le_of_not_lt hi), Nat.le_of_not_lt hi, Bool.and_comm]

/-- Settles O27: each law is about the values SHL and SHR write; `rd ≠ rb` keeps the count for the second shift. -/
theorem shiftLawsHold : Obligations.ShiftLawsHold := by
  intro s rd ra rb
  obtain ⟨t, ht, htrd, -⟩ := exec_shl s rd ra rb
  obtain ⟨u, hu, hurd, huframe⟩ := exec_shr s rd ra rb
  refine ⟨t, u, ht, hu, fun hlarge => ?_, fun hzero => ?_, fun hsmall hne => ?_⟩
  · have hpow : 2 ^ s.params.bits ∣ 2 ^ s.r rb := pow_dvd_pow 2 hlarge
    rw [htrd, hurd]
    exact ⟨Nat.mod_eq_zero_of_dvd (hpow.mul_left _),
      Nat.div_eq_of_lt (lt_of_lt_of_le (s.r_lt ra) (Nat.le_of_dvd (Nat.two_pow_pos _) hpow))⟩
  · rw [htrd, hurd, hzero, pow_zero, Nat.mul_one, Nat.div_one]
    exact ⟨Nat.mod_eq_of_lt (s.r_lt ra), rfl⟩
  · obtain ⟨v, hv, hvrd, -⟩ := exec_shl u rd rd rb
    refine ⟨v, hv, ?_⟩
    rw [hvrd, hurd, huframe.r_of_ne hne.symm, huframe.params, div_mul_two_pow_mod _ hsmall.le]

end Sys2Proof.Machine
end

section
/-! PROOFS. The barrel shifter computes the normative shifts (42_bitwise_shift.md R164). The two parts of a shift are followed
separately: moving whole limbs renumbers them, and a shift by fewer bits than a limb joins the bits of two neighbours. -/

namespace Sys2Proof.Machine

section
variable (w n : Nat)

/-! ## Whole limbs -/

theorem limb_mul_two_pow_limbs (x j l : Nat) : limb w (x * 2 ^ (l * w)) (j + l) = limb w x j := by
  rw [limb, limb, Nat.add_mul, pow_add, Nat.mul_div_mul_right _ _ (Nat.two_pow_pos _)]

theorem limb_mul_two_pow_limbs_of_lt (x : Nat) {j l : Nat} (hj : j < l) : limb w (x * 2 ^ (l * w)) j = 0 := by
  obtain ⟨m, rfl⟩ := Nat.exists_eq_add_of_lt hj
  have hsplit : x * 2 ^ ((j + m + 1) * w) = 2 ^ (j * w) * (2 ^ w * (x * 2 ^ (m * w))) := by ring
  rw [limb, hsplit, Nat.mul_div_cancel_left _ (Nat.two_pow_pos _), Nat.mul_mod_right]

theorem limb_div_two_pow_limbs (x j l : Nat) : limb w (x / 2 ^ (l * w)) j = limb w x (j + l) := by
  rw [limb, limb, Nat.div_div_eq_div_mul, ← pow_add, ← Nat.add_mul, Nat.add_comm l]

theorem limbAt_natCast (x : Nat) {j : Nat} (hj : j < n) : limbAt w n x j = limb w x j := by
  simp [limbAt, hj]

theorem limbAt_natCast_of_lt {x : Nat} (hx : x < 2 ^ (n * w)) (j : Nat) : limbAt w n x j = limb w x j := by
  by_cases hj : j < n
  · exact limbAt_natCast w n x hj
  · simp [limbAt, hj, limb_eq_zero w n x j hx (Nat.le_of_not_lt hj)]

theorem limbAt_of_neg (x : Nat) {k : Int} (hk : k < 0) : limbAt w n x k = 0 :=
  if_neg fun h => absurd h.1 (Int.not_le.mpr hk)

/-- Shifting left by `l` limbs moves limb `k - l` to limb `k`; the limbs below `l` are filled with 0. -/
theorem limbAt_sub (x l : Nat) {k : Int} (hk : k < n) : limbAt w n x (k - l) = limbAt w n (x * 2 ^ (l * w)) k := by
  rcases Int.lt_or_le k 0 with hneg | hpos
  · rw [limbAt_of_neg w n _ hneg, limbAt_of_neg w n _ (by omega)]
  · lift k to Nat using hpos
    have hkn : k < n := by omega
    rw [limbAt_natCast w n _ hkn]
    rcases Nat.lt_or_ge k l with hlow | hhigh
    · rw [limb_mul_two_pow_limbs_of_lt w x hlow, limbAt_of_neg w n _ (by omega)]
    · obtain ⟨j, rfl⟩ := Nat.exists_eq_add_of_le' hhigh
      rw [limb_mul_two_pow_limbs, Nat.cast_add, add_sub_cancel_right, limbAt_natCast w n x (by omega)]

/-- Shifting right by `l` limbs moves limb `j + l` to limb `j`; a value of `n` limbs has only 0 above them to bring in. -/
theorem limbAt_add {x : Nat} (hx : x < 2 ^ (n * w)) (l j : Nat) :
    limbAt w n x (j + l) = limb w (x / 2 ^ (l * w)) j := by
  rw [limb_div_two_pow_limbs, ← Nat.cast_add, limbAt_natCast_of_lt w n hx]

/-! ## Fewer bits than a limb -/

/-- The `b = 0` case of R164 to the left: no bit of a limb crosses into the next one. -/
theorem ite_div_two_pow {b x : Nat} (hx : x < 2 ^ w) :
    (if b = 0 then 0 else x / 2 ^ (w - b)) = x / 2 ^ (w - b) := by
  refine ite_eq_right_iff.mpr ?_
  rintro rfl
  exact (Nat.div_eq_of_lt hx).symm

/-- The `b = 0` case of R164 to the right. -/
theorem ite_mul_two_pow_mod (b x : Nat) :
    (if b = 0 then 0 else x * 2 ^ (w - b) % 2 ^ w) = x * 2 ^ (w - b) % 2 ^ w := by
  refine ite_eq_right_iff.mpr ?_
  rintro rfl
  exact (Nat.mul_mod_left x (2 ^ w)).symm

theorem limb_zero_mul_two_pow (b y : Nat) : limb w (y * 2 ^ b) 0 = limb w y 0 * 2 ^ b % 2 ^ w := by
  simp [limb]

/-- In a left shift by `b < w` a limb keeps its lower bits and takes the upper `b` bits of the limb below it. -/
theorem limb_succ_mul_two_pow {b : Nat} (hb : b < w) (y j : Nat) :
    limb w (y * 2 ^ b) (j + 1) = limb w y (j + 1) * 2 ^ b % 2 ^ w ||| limb w y j / 2 ^ (w - b) := by
  apply Nat.eq_of_testBit_eq
  intro i
  have hsucc : (j + 1) * w = j * w + w := Nat.succ_mul j w
  simp only [testBit_limb, Nat.testBit_or, Nat.testBit_mod_two_pow, Nat.testBit_mul_two_pow, Nat.testBit_div_two_pow]
  by_cases hi : i < w
  · have hplace : b ≤ (j + 1) * w + i := by omega
    rcases Nat.lt_or_ge i b with hlow | hhigh
    · have hbit : (j + 1) * w + i - b = j * w + (i + (w - b)) := by omega
      simp [hi, hplace, hbit, hlow, show i + (w - b) < w by omega]
    · have hbit : (j + 1) * w + i - b = (j + 1) * w + (i - b) := by omega
      simp [hi, hplace, hbit, hhigh, show i - b < w by omega, show ¬ i + (w - b) < w by omega]
  · simp [hi, show ¬ i + (w - b) < w by omega]

/-- In a right shift by `b < w` a limb keeps its upper bits and takes the lower `b` bits of the limb above it. -/
theorem limb_div_two_pow {b : Nat} (hb : b < w) (y j : Nat) :
    limb w (y / 2 ^ b) j = limb w y j / 2 ^ b ||| limb w y (j + 1) * 2 ^ (w - b) % 2 ^ w := by
  apply Nat.eq_of_testBit_eq
  intro i
  have hsucc : (j + 1) * w = j * w + w := Nat.succ_mul j w
  simp only [testBit_limb, Nat.testBit_or, Nat.testBit_mod_two_pow, Nat.testBit_mul_two_pow, Nat.testBit_div_two_pow]
  by_cases hi : i < w
  · rcases Nat.lt_or_ge (i + b) w with hlow | hhigh
    · simp [hi, hlow, show ¬ w - b ≤ i by omega, Nat.add_assoc]
    · have hbit : j * w + i + b = (j + 1) * w + (i - (w - b)) := by omega
      simp [hi, hbit, hhigh, show i - (w - b) < w by omega]
  · simp [hi, show ¬ i + b < w by omega]

/-! ## The shifter -/

theorem limbAt_lt (x : Nat) (k : Int) : limbAt w n x k < 2 ^ w := by
  unfold limbAt
  split
  · exact limb_lt w x k.toNat
  · exact Nat.two_pow_pos w

/-- One limb of the left shift: whole limbs make `y` of `x`, and `b` bits more the result. -/
theorem barrelLeft_limb {b : Nat} (hb : b < w) (x l : Nat) {j : Nat} (hj : j < n) :
    (limbAt w n x (j - l : Int) * 2 ^ b) % 2 ^ w ||| (if b = 0 then 0 else limbAt w n x (j - l - 1 : Int) / 2 ^ (w - b)) =
      limb w (x * 2 ^ (l * w) * 2 ^ b) j := by
  rw [ite_div_two_pow w (limbAt_lt w n x _), sub_right_comm, limbAt_sub w n x l (by omega), limbAt_sub w n x l (by omega),
    limbAt_natCast w n _ hj]
  generalize x * 2 ^ (l * w) = y
  cases j with
  | zero => simp [limb_zero_mul_two_pow, limbAt_of_neg]
  | succ j => rw [limb_succ_mul_two_pow w hb, Nat.cast_succ, add_sub_cancel_right, limbAt_natCast w n _ (by omega)]

theorem barrelRight_limb {b : Nat} (hb : b < w) {x : Nat} (hx : x < 2 ^ (n * w)) (l j : Nat) :
    limbAt w n x (j + l : Int) / 2 ^ b ||| (if b = 0 then 0 else (limbAt w n x (j + l + 1 : Int) * 2 ^ (w - b)) % 2 ^ w) =
      limb w (x / 2 ^ (l * w) / 2 ^ b) j := by
  rw [ite_mul_two_pow_mod, add_right_comm, ← Nat.cast_succ, limbAt_add w n hx, limbAt_add w n hx, limb_div_two_pow w hb]

theorem two_pow_split (s : Nat) : 2 ^ s = 2 ^ (s / w * w) * 2 ^ (s % w) := by
  rw [← pow_add, Nat.div_add_mod']

/-- Limbs listed by an integer index, as the shifter lists them, make up a value when each is the value's limb. -/
theorem ofLimbs_map_intRange (f : Int → Nat) (v : Nat) (hf : ∀ j : Nat, j < n → f j = limb w v j) :
    ofLimbs w ((List.range n >>= fun j => pure (j : Int)).map f) = v % 2 ^ (n * w) := by
  have hlimbs : (List.range n >>= fun j => pure (j : Int)).map f = limbsOf w n v := by
    rw [bind_pure_comp, List.map_eq_map, List.map_map]
    exact List.map_congr_left fun j hj => hf j (List.mem_range.mp hj)
  rw [hlimbs, ofLimbs_limbsOf]

theorem barrelLeft_eq (hw : 0 < w) (x s : Nat) : barrelLeft w n x s = shiftLeft (n * w) x s := by
  refine ite_congr rfl (fun _ => rfl) fun _ => ofLimbs_map_intRange w n _ _ fun j hj => ?_
  rw [two_pow_split w s, ← Nat.mul_assoc]
  exact barrelLeft_limb w n (Nat.mod_lt s hw) x (s / w) hj

theorem barrelRight_eq (hw : 0 < w) {x : Nat} (hx : x < 2 ^ (n * w)) (s : Nat) :
    barrelRight w n x s = shiftRight (n * w) x s := by
  have hfits : x / 2 ^ s % 2 ^ (n * w) = x / 2 ^ s := Nat.mod_eq_of_lt (lt_of_le_of_lt (Nat.div_le_self _ _) hx)
  refine ite_congr rfl (fun _ => rfl) fun _ => (ofLimbs_map_intRange w n _ _ fun j _ => ?_).trans hfits
  rw [two_pow_split w s, ← Nat.div_div_eq_div_mul]
  exact barrelRight_limb w n (Nat.mod_lt s hw) hx (s / w) j

end

/-- Settles O58: the shifter's limbs are those of the shifted value, so it gives the values the commands use. -/
theorem barrelShifterComputesTheShifts : Obligations.BarrelShifterComputesTheShifts := by
  intro w n x s hw hx
  rw [barrelLeft_eq w n hw, barrelRight_eq w n hw hx, shiftLeft_eq, shiftRight_eq _ _ _ hx]
  exact ⟨rfl, rfl⟩

end Sys2Proof.Machine
end

section
/-! PROOFS. The comparators (43_compare.md R180 to R189). Every comparison of the block is `order`: a three-way compare writes
its code to `STATUS.CMP`, a set-compare the truth of one relation, and the limb-level engine computes it from the top limb. -/

namespace Sys2Proof.Machine

open Sys2Proof.Safety

/-! ## The limb comparison (R188) -/

/-- A low part below `p` cannot make up for a smaller high part. -/
theorem add_mul_lt_add_mul_of_high {p a c d : Nat} (ha : a < p) (hhigh : c < d) (b : Nat) : a + p * c < b + p * d := by
  calc a + p * c < p + p * c := Nat.add_lt_add_right ha _
    _ = p * (c + 1) := by rw [Nat.mul_succ, Nat.add_comm]
    _ ≤ p * d := Nat.mul_le_mul_left p hhigh
    _ ≤ b + p * d := Nat.le_add_left _ b

/-- The high parts decide the order, and the low parts only where the high parts are equal. -/
theorem order_add_mul {p a b : Nat} (ha : a < p) (hb : b < p) (c d : Nat) :
    order (a + p * c) (b + p * d) = if c < d then .lt else if d < c then .gt else order a b := by
  rcases Nat.lt_trichotomy c d with hlt | rfl | hgt
  · rw [if_pos hlt, order_eq_lt_iff]
    exact add_mul_lt_add_mul_of_high ha hlt b
  · simp [order]
  · rw [if_neg hgt.asymm, if_pos hgt, order_eq_gt_iff]
    exact add_mul_lt_add_mul_of_high hb hgt a

/-- The limbs below `n` make up the low `n * w` bits, and their comparison orders these. -/
theorem limbOrder_eq (w x y n : Nat) : limbOrder w x y n = order (x % 2 ^ (n * w)) (y % 2 ^ (n * w)) := by
  induction n with
  | zero => simp [limbOrder, order, Nat.mod_one]
  | succ n ih =>
    have hlow (v : Nat) : v % 2 ^ (n * w) < 2 ^ (n * w) := Nat.mod_lt v (Nat.two_pow_pos _)
    have htop (v : Nat) : v % 2 ^ ((n + 1) * w) = v % 2 ^ (n * w) + 2 ^ (n * w) * limb w v n := by
      rw [Nat.succ_mul, pow_add, Nat.mod_mul, limb]
    rw [limbOrder, ih, htop x, htop y, order_add_mul (hlow x) (hlow y)]

/-- Settles O59: all limbs of two values of `n` limbs are compared. -/
theorem limbComparisonIsTheIntegerOrder : Obligations.LimbComparisonIsTheIntegerOrder := by
  intro w n x y hx hy
  rw [limbOrder_eq, Nat.mod_eq_of_lt hx, Nat.mod_eq_of_lt hy]

/-! ## CMP and CMPI (R180, R181) -/

theorem cmpCode_order (x y : Nat) :
    BitVec.ofNat 2 (cmpCode (order x y)) = if x = y then 0b00#2 else if x < y then 0b01#2 else 0b10#2 := by
  rcases Nat.lt_trichotomy x y with hlt | rfl | hgt
  · rw [(order_eq_lt_iff x y).mpr hlt, if_neg hlt.ne, if_pos hlt]
    rfl
  · rw [(order_eq_eq_iff x x).mpr rfl, if_pos rfl]
    rfl
  · rw [(order_eq_gt_iff x y).mpr hgt, if_neg hgt.ne', if_neg hgt.asymm]
    rfl

/-- The outcome of a three-way compare, from a register or an immediate. -/
theorem doneCompare_order (s : State) (x y : Nat) :
    ∃ t, doneCompare (order x y) s = .next t ∧
      t = { s with status := { s.status with cmp := t.status.cmp, last := none } } ∧
      t.status.word.extractLsb' 4 2 = (if x = y then 0b00#2 else if x < y then 0b01#2 else 0b10#2) :=
  ⟨_, rfl, rfl, (Status.word_cmpField _).trans (cmpCode_order x y)⟩

/-- Settles O28: neither opcode has a constraint of R97, and both commands write the code of one order. -/
theorem comparesWriteTheCmpField : Obligations.ComparesWriteTheCmpField :=
  ⟨⟨decodesAs .cmp nofun nofun (fun w => .cmp (fieldRa w) (fieldRb w)) fun _ => rfl,
      fun s ra rb => doneCompare_order s (s.r ra) (s.r rb)⟩,
    ⟨decodesAs .cmpi nofun nofun (fun w => .cmpi (fieldRa w) (fieldImm16 w)) fun _ => rfl,
      fun s ra imm16 => doneCompare_order s (s.r ra) (immValue imm16)⟩⟩

/-! ## The set-compare commands (R182 to R187, R189) -/

/-- The template of R189 writes the truth of the relation its predicate on orders stands for. -/
theorem setCompare_writes {s : State} {ra rb : Reg} (holds : Ordering → Bool) {P : Prop} [Decidable P]
    (hP : holds (order (s.r ra) (s.r rb)) = true ↔ P) (rd : Reg) :
    ∃ t, setCompare holds rd ra rb s = .next t ∧ t.r rd = (if P then 1 else 0) ∧ WritesOnly [rd] s t := by
  obtain ⟨t, hdone, hrd, hframe⟩ := done_writeReg s rd _ (truth_lt s (holds (order (s.r ra) (s.r rb))))
  refine ⟨t, hdone, ?_, hframe⟩
  rw [hrd, truth]
  exact ite_congr (propext hP) (fun _ => rfl) fun _ => rfl

/-- Where the order `o` means the relation `P`, any other order means the complement of `P`. -/
theorem bne_order_iff {o : Ordering} {x y : Nat} {P Q : Prop} (ho : order x y = o ↔ P) (hPQ : ¬ P ↔ Q) :
    (order x y != o) = true ↔ Q :=
  bne_iff_ne.trans (ho.not.trans hPQ)

/-- Settles O29: no opcode of the six has a constraint of R97, and each predicate on orders stands for its relation. -/
theorem setComparesWriteOneOrZero : Obligations.SetComparesWriteOneOrZero :=
  ⟨⟨decodesAs .seq nofun nofun (fun w => .seq (fieldRd w) (fieldRa w) (fieldRb w)) fun _ => rfl,
      fun _ rd _ _ => setCompare_writes (· == .eq) (beq_iff_eq.trans (order_eq_eq_iff _ _)) rd⟩,
    ⟨decodesAs .sne nofun nofun (fun w => .sne (fieldRd w) (fieldRa w) (fieldRb w)) fun _ => rfl,
      fun _ rd _ _ => setCompare_writes (· != .eq) (bne_order_iff (order_eq_eq_iff _ _) Iff.rfl) rd⟩,
    ⟨decodesAs .slt nofun nofun (fun w => .slt (fieldRd w) (fieldRa w) (fieldRb w)) fun _ => rfl,
      fun _ rd _ _ => setCompare_writes (· == .lt) (beq_iff_eq.trans (order_eq_lt_iff _ _)) rd⟩,
    ⟨decodesAs .sle nofun nofun (fun w => .sle (fieldRd w) (fieldRa w) (fieldRb w)) fun _ => rfl,
      fun _ rd _ _ => setCompare_writes (· != .gt) (bne_order_iff (order_eq_gt_iff _ _) Nat.not_lt) rd⟩,
    ⟨decodesAs .sgt nofun nofun (fun w => .sgt (fieldRd w) (fieldRa w) (fieldRb w)) fun _ => rfl,
      fun _ rd _ _ => setCompare_writes (· == .gt) (beq_iff_eq.trans (order_eq_gt_iff _ _)) rd⟩,
    ⟨decodesAs .sge nofun nofun (fun w => .sge (fieldRd w) (fieldRa w) (fieldRb w)) fun _ => rfl,
      fun _ rd _ _ => setCompare_writes (· != .lt) (bne_order_iff (order_eq_lt_iff _ _) Nat.not_lt) rd⟩⟩

end Sys2Proof.Machine
end

section
/-! PROOFS. The literal commands (44_literal.md R200 to R205). PARSE and the two formatting commands have one lemma each
about their next state; the round trips of R204 and R205 are proved once for both bases, over `FormatsBy`. -/

namespace Sys2Proof.Machine

open Sys2Proof.Safety

/-! ## PARSE (R200, R201) -/

section
variable (s : State) (rd : Reg)

theorem exec_parse_of_spells {base : Nat} {vs : List Nat} (h : Spells s.txt base vs) :
    ∃ t, exec (.parse rd) s = .next t ∧ t.r rd = digitSum base vs % 2 ^ s.params.bits ∧ WritesOnly [rd] s t := by
  have hexec : exec (.parse rd) s = done (s.writeReg rd (accumulate s.params.bits base vs)) := by
    rw [exec, execParse, (literal_iff s.txt base vs).mpr h]
  rw [hexec, accumulate_eq]
  exact done_writeReg s rd _ (Nat.mod_lt _ (Nat.two_pow_pos _))

theorem exec_parse_of_not_spells (h : ¬ ∃ base vs, Spells s.txt base vs) :
    ∃ t, exec (.parse rd) s = .next t ∧ Raises .invalidLiteral s t := by
  have hexec : exec (.parse rd) s = fail .invalidLiteral s := by
    rw [exec, execParse, (literal_eq_none_iff s.txt).mpr h]
  rw [hexec]
  exact fail_raises s .invalidLiteral

end

/-- Settles O30: `literal` reads exactly the texts of R200, and the running total is the reduced digit sum. -/
theorem parseReadsTheLiteral : Obligations.ParseReadsTheLiteral :=
  ⟨decodesAs .parse nofun nofun (fun w => .parse (fieldRd w)) fun _ => rfl,
    fun s rd => ⟨fun _ _ => exec_parse_of_spells s rd, exec_parse_of_not_spells s rd⟩⟩

/-! ## FMTD and FMTH (R202, R203) -/

/-- The text of FMTH: the prefix that selects base 16, then the digits. -/
def canonicalHex (x : Nat) : List Byte := 0x30#8 :: 0x78#8 :: canonicalDigits 16 x

theorem length_canonicalHex (x : Nat) : (canonicalHex x).length = 2 + (canonicalDigits 16 x).length :=
  Nat.add_comm _ 2

theorem exec_fmtd (s : State) (ra : Reg) :
    exec (.fmtd ra) s = .next (s.setTxt (canonicalDigits 10 (s.r ra))).succeed := by
  rw [← decimalText_eq]
  rfl

theorem exec_fmth (s : State) (ra : Reg) : exec (.fmth ra) s = .next (s.setTxt (canonicalHex (s.r ra))).succeed := by
  rw [canonicalHex, ← hexText_eq]
  rfl

theorem canonicalDigits_length_le_txtCap (s : State) (ra : Reg) :
    (canonicalDigits 10 (s.r ra)).length ≤ s.params.txtCap := by
  rw [← decimalText_eq]
  exact decimalText_length_le s ra

theorem canonicalHex_length_le_txtCap (s : State) (ra : Reg) : (canonicalHex (s.r ra)).length ≤ s.params.txtCap := by
  rw [canonicalHex, ← hexText_eq]
  exact hexText_length_le s ra

/-- Writing TXT and completing leaves every register and the host's side alone. -/
theorem setTxt_keeps (s : State) (text : List Byte) : Keeps [] s (s.setTxt text).succeed :=
  ⟨rfl, fun _ _ => rfl, rfl, rfl⟩

/-- Settles O31: the emitted text is the canonical one, within TXT_CAP by the constraints of R10. -/
theorem formatsWriteCanonicalText : Obligations.FormatsWriteCanonicalText :=
  ⟨⟨decodesAs .fmtd nofun nofun (fun w => .fmtd (fieldRa w)) fun _ => rfl,
      fun s ra => ⟨_, exec_fmtd s ra, rfl, rfl, canonicalDigits_length_le_txtCap s ra, setTxt_keeps s _, rfl, rfl⟩⟩,
    ⟨decodesAs .fmth nofun nofun (fun w => .fmth (fieldRa w)) fun _ => rfl,
      fun s ra => ⟨_, exec_fmth s ra, rfl, length_canonicalHex _, canonicalHex_length_le_txtCap s ra, setTxt_keeps s _,
        rfl, rfl⟩⟩⟩

/-! ## Round trips (R204, R205) -/

/-- The command writes `text` of its register to TXT, and `text x` is a literal of the value `x`. -/
structure FormatsBy (text : Nat → List Byte) (command : Reg → Instr) : Prop where
  exec_eq : ∀ (s : State) (ra : Reg), exec (command ra) s = .next (s.setTxt (text (s.r ra))).succeed
  spells : ∀ x, ∃ base vs, Spells (text x) base vs ∧ digitSum base vs = x

theorem formatsBy_fmtd : FormatsBy (canonicalDigits 10) .fmtd := ⟨exec_fmtd, fun x => ⟨10, spells_decimal x⟩⟩

theorem formatsBy_fmth : FormatsBy canonicalHex .fmth := ⟨exec_fmth, fun x => ⟨16, spells_hexadecimal x⟩⟩

theorem FormatsBy.txt_eq {text : Nat → List Byte} {command : Reg → Instr} (h : FormatsBy text command) {s t : State}
    {ra : Reg} (ht : exec (command ra) s = .next t) : t.txt = text (s.r ra) := by
  cases ht.symm.trans (h.exec_eq s ra)
  rfl

/-- PARSE after a formatting command reads the formatted value back, because it fits the register it came from; formatting
it again then emits the text of the same value. -/
theorem FormatsBy.roundTrip {text : Nat → List Byte} {command : Reg → Instr} (h : FormatsBy text command) (s : State)
    (ra rd : Reg) :
    ∃ t u v, exec (command ra) s = .next t ∧ exec (.parse rd) t = .next u ∧ u.status.last = none ∧ u.r rd = s.r ra ∧
      exec (command rd) u = .next v ∧ v.txt = t.txt := by
  obtain ⟨base, vs, hspells, hvalue⟩ := h.spells (s.r ra)
  obtain ⟨u, hparse, hu, hframe⟩ := exec_parse_of_spells (s.setTxt (text (s.r ra))).succeed rd hspells
  have hback : u.r rd = s.r ra := by
    rw [hu, hvalue]
    exact Nat.mod_eq_of_lt (s.r_lt ra)
  refine ⟨_, u, _, h.exec_eq s ra, hparse, ?_, hback, h.exec_eq u rd, congrArg text hback⟩
  rw [hframe.status]

/-- Settles O32: the round trip of either formatting command. -/
theorem parseOfFormatRoundTrip : Obligations.ParseOfFormatRoundTrip :=
  ⟨formatsBy_fmtd.roundTrip, formatsBy_fmth.roundTrip⟩

/-- What stands in a register is formatted to one text, and parsing and formatting that text gives it again. -/
theorem FormatsBy.idempotent {text : Nat → List Byte} {command : Reg → Instr} (h : FormatsBy text command) {s : State}
    {rd : Reg} {x : Nat} (hx : s.r rd = x) (rd' : Reg) :
    ∃ b c d, exec (command rd) s = .next b ∧ b.txt = text x ∧ exec (.parse rd') b = .next c ∧
      exec (command rd') c = .next d ∧ d.txt = b.txt := by
  obtain ⟨b, c, d, hb, hc, -, -, hd⟩ := h.roundTrip s rd rd'
  exact ⟨b, c, d, hb, hx ▸ h.txt_eq hb, hc, hd⟩

/-- Settles O33: PARSE leaves the reduced digit sum in its register, which either command then formats. -/
theorem formatAfterParseIsCanonical : Obligations.FormatAfterParseIsCanonical := by
  intro s rd rd' base vs hspells
  obtain ⟨a, hparse, hvalue, -⟩ := exec_parse_of_spells s rd hspells
  exact ⟨a, hparse, formatsBy_fmtd.idempotent hvalue rd', formatsBy_fmth.idempotent hvalue rd'⟩

end Sys2Proof.Machine
end

section
/-! PROOFS. Modular exponentiation (45_modpow.md R220 to R222): what MODPOW writes, and how many operations of each kind its
sequencer performs. -/

namespace Sys2Proof.Machine

open Sys2Proof.Safety

/-! ## MODPOW (R220) -/

section
variable (s : State) (rd ra rb : Reg) {rc : Reg}

/-- The power is below its modulus, which is a register's value, so it fits the destination. -/
theorem exec_modpow (hm : s.r rc ≠ 0) :
    ∃ t, exec (.modpow rd ra rb rc) s = .next t ∧ t.r rd = s.r ra ^ s.r rb % s.r rc ∧ WritesOnly [rd] s t := by
  have hexec : exec (.modpow rd ra rb rc) s = done (s.writeReg rd (powMod (s.r ra) (s.r rb) (s.r rc))) := if_neg hm
  rw [hexec, powMod_eq]
  exact done_writeReg s rd _ ((Nat.mod_lt _ (Nat.pos_of_ne_zero hm)).trans (s.r_lt rc))

theorem exec_modpow_zero (hm : s.r rc = 0) :
    ∃ t, exec (.modpow rd ra rb rc) s = .next t ∧ Raises .divisionByZero s t :=
  ⟨_, if_pos hm, raise_raises s .divisionByZero⟩

end

/-- Settles O34: the sequencer gives the power by `powMod_eq`; the modulus is tested before a write. -/
theorem modpowWritesTheExactPower : Obligations.ModpowWritesTheExactPower :=
  ⟨decodesAs .modpow nofun nofun (fun w => .modpow (fieldRd w) (fieldRa w) (fieldRb w) (fieldRc w)) fun _ => rfl,
    fun s rd ra rb _ => ⟨exec_modpow s rd ra rb, exec_modpow_zero s rd ra rb⟩⟩

/-! ## The operations of the sequencer (R221, R222) -/

/-- Every bit costs one squaring. -/
theorem count_square_powOps (e n : Nat) : (powOps e n).count .square = n := by
  induction n with
  | zero => rfl
  | succ i ih =>
    unfold powOps
    split <;> simp [ih]

/-- A bit costs as many multiplies as its value. -/
theorem count_multiply_powOps_succ (e i : Nat) :
    (powOps e (i + 1)).count .multiply = (powOps e i).count .multiply + e / 2 ^ i % 2 := by
  rw [powOps]
  split
  · next hbit => simp [hbit]
  · next hbit => simp [Nat.mod_two_ne_one.mp hbit]

theorem sum_digits_two (x : Nat) : (Nat.digits 2 x).sum = x % 2 + (Nat.digits 2 (x / 2)).sum := by
  rcases Nat.eq_zero_or_pos x with rfl | hx
  · simp
  · rw [Nat.digits_def' one_lt_two hx, List.sum_cons]

/-- The multiplies for the low `n` bits make up, with the set bits above them, all the set bits. -/
theorem count_multiply_powOps_add (e n : Nat) :
    (powOps e n).count .multiply + (Nat.digits 2 (e / 2 ^ n)).sum = (Nat.digits 2 e).sum := by
  induction n with
  | zero => simp [powOps]
  | succ i ih =>
    rw [count_multiply_powOps_succ, pow_succ, ← Nat.div_div_eq_div_mul, Nat.add_assoc, ← sum_digits_two, ih]

/-- Settles O35: no bit of `e` stands above `bitlen e`. The law holds of `e = 0` too, where there is no operation. -/
theorem sequencerOperationCounts : Obligations.SequencerOperationCounts := by
  intro e _
  have hmultiplies := count_multiply_powOps_add e (bitlen e)
  rw [Nat.div_eq_of_lt (lt_two_pow_bitlen e), Nat.digits_zero, List.sum_nil, Nat.add_zero] at hmultiplies
  exact ⟨count_square_powOps e (bitlen e), hmultiplies⟩

end Sys2Proof.Machine
end

section
/-! PROOFS. The random unit (46_random.md R230 to R237): what SEED, RAND and URAND leave in the state, told by the sampler, and
the ranges on which the sampler takes its first candidate. -/

namespace Sys2Proof.Machine

open Sys2Proof.Config Sys2Proof.Safety

/-! ## SEED (R230) -/

/-- A register is its own value, read as a number of the width and written back. -/
theorem ofNat_r (s : State) (i : Reg) : BitVec.ofNat s.params.bits (s.r i) = s.regs[i] := by
  rw [State.r, BitVec.ofNat_toNat, BitVec.setWidth_eq]

/-- Settles O36: the opcode has no constraint of R97, and SEED reads the whole register. -/
theorem seedSetsTheEngine : Obligations.SeedSetsTheEngine :=
  ⟨decodesAs .seed nofun nofun (fun w => .seed (fieldRa w)) fun _ => rfl,
    fun s ra => ⟨_, rfl, congrArg _ (ofNat_r s ra).symm, ⟨rfl, fun _ _ => rfl, rfl, rfl⟩, rfl, rfl⟩⟩

/-! ## The sampler on ranges of `2^t` values and on the full range (R231, R234, R235) -/

/-- `nb` in the library's terms (R231). -/
theorem rangeBits_rangeSize (low high : Nat) : rangeBits (rangeSize low high) = Nat.size (high - low) :=
  bitlen_eq_size (high - low)

/-- `M = 2^nb` where `M` is a power of two (R234). -/
theorem rangeBits_two_pow (t : Nat) : rangeBits (2 ^ t) = t := by
  rw [rangeBits, bitlen_eq_size]
  apply le_antisymm
  · exact Nat.size_le.mpr (Nat.sub_lt (Nat.two_pow_pos t) Nat.one_pos)
  · cases t with
    | zero => exact Nat.zero_le _
    | succ n =>
      have hpos := Nat.two_pow_pos n
      exact Nat.lt_size.mpr (by omega)

/-- A candidate is masked to `nb` bits on every engine (R232). -/
theorem candidateAt_lt (p : Params) (k nb : Nat) (e : EngineState) (n : Nat) : candidateAt p k nb e n < 2 ^ nb :=
  Nat.mod_lt _ (Nat.two_pow_pos nb)

/-- A candidate of `t` bits is below `2^t`, so the first one is accepted (R234). -/
theorem sample_of_two_pow {low high t : Nat} (hsize : rangeSize low high = 2 ^ t) (p : Params) (e : EngineState) :
    sample p low high e = some (engineAfter p (drawsPerCandidate p.limbW.bits t) e,
      low + candidateAt p (drawsPerCandidate p.limbW.bits t) t e 0) := by
  have hnb : t = rangeBits (rangeSize low high) := by rw [hsize, rangeBits_two_pow]
  have haccepted : candidateAt p (drawsPerCandidate p.limbW.bits t) t e 0 < rangeSize low high :=
    hsize ▸ candidateAt_lt p _ t e 0
  have hsample := sample_eq_some p low high e t _ 0 hnb rfl haccepted nofun
  rwa [Nat.zero_add, Nat.one_mul] at hsample

/-- `k = NLIMB` on the full range (R235). -/
theorem drawsPerCandidate_bits (p : Params) : drawsPerCandidate p.limbW.bits p.bits = p.nlimb := by
  have hpos : 0 < p.limbW.bits := by cases p.limbW <;> decide
  rw [drawsPerCandidate, ← Nat.ceilDiv_eq_add_pred_div, ← params_nlimb_mul p, Nat.mul_comm]
  exact smul_ceilDiv hpos p.nlimb

/-- The full range has `2^BITS` values, and its first candidate is the one RAND takes (R235). -/
theorem sample_full (p : Params) (e : EngineState) : sample p 0 (2 ^ p.bits - 1) e = some (sampleFull p e) := by
  have hsize : rangeSize 0 (2 ^ p.bits - 1) = 2 ^ p.bits := Nat.sub_add_cancel Nat.one_le_two_pow
  rw [sample_of_two_pow hsize, drawsPerCandidate_bits, Nat.zero_add, sampleFull_eq]

/-- `NLIMB` raw outputs make up a value of the width (R235). -/
theorem sum_rawOutput_lt (p : Params) (e : EngineState) :
    ∑ j ∈ Finset.range p.nlimb, rawOutput p e j * 2 ^ (j * p.limbW.bits) < 2 ^ p.bits := by
  have hlt := sum_limbs_lt p.limbW.bits (rawOutput p e) (rawOutput_lt p e) p.nlimb
  rwa [params_nlimb_mul] at hlt

/-- The mask to BITS bits leaves the value of `NLIMB` raw outputs as it is (R235). -/
theorem sampleFull_eq_sum (p : Params) (e : EngineState) :
    sampleFull p e =
      (engineAfter p p.nlimb e, ∑ j ∈ Finset.range p.nlimb, rawOutput p e j * 2 ^ (j * p.limbW.bits)) := by
  simp only [sampleFull_eq, candidateAt, Nat.zero_mul, Nat.zero_add, Nat.mod_eq_of_lt (sum_rawOutput_lt p e)]

/-! ## What a draw leaves in the state -/

/-- The state after RAND or URAND has drawn: `d` is the engine after its draws and the value drawn. -/
def State.afterDraw (s : State) (rd : Reg) (d : EngineState × Nat) : State := ((s.setEng d.1).writeReg rd d.2).succeed

@[simp] theorem State.afterDraw_eng (s : State) (rd : Reg) (d : EngineState × Nat) : (s.afterDraw rd d).eng = d.1 := rfl

@[simp] theorem State.afterDraw_last (s : State) (rd : Reg) (d : EngineState × Nat) :
    (s.afterDraw rd d).status.last = none := rfl

@[simp] theorem State.afterDraw_r (s : State) (rd : Reg) (d : EngineState × Nat) :
    (s.afterDraw rd d).r rd = d.2 % 2 ^ s.params.bits :=
  State.r_writeReg_same (s.setEng d.1) rd d.2

/-- `t` is what a draw of value `v` into `rd` leaves, with engine `e` after it: everything else is as in `s` but LAST. -/
def Draws (rd : Reg) (v : Nat) (e : EngineState) (s t : State) : Prop :=
  t.r rd = v ∧ t.eng = e ∧ Keeps [rd] s t ∧ t.txt = s.txt ∧ t.status = { s.status with last := none }

/-- A drawn value that fits its register is written unreduced. -/
theorem draws_afterDraw (s : State) (rd : Reg) {d : EngineState × Nat} (hfits : d.2 < 2 ^ s.params.bits) :
    Draws rd d.2 d.1 s (s.afterDraw rd d) := by
  have hframe := writeReg_writesOnly (s.setEng d.1) rd d.2
  refine ⟨?_, rfl, ⟨rfl, hframe.regs, rfl, rfl⟩, rfl, rfl⟩
  rw [State.afterDraw_r, Nat.mod_eq_of_lt hfits]

/-! ## RAND and URAND (R235, R236) -/

theorem exec_rand (s : State) (rd : Reg) : exec (.rand rd) s = .next (s.afterDraw rd (sampleFull s.params s.eng)) := rfl

theorem exec_rand_draws (s : State) (rd : Reg) :
    ∃ t, exec (.rand rd) s = .next t ∧
      Draws rd (∑ j ∈ Finset.range s.params.nlimb, rawOutput s.params s.eng j * 2 ^ (j * s.params.limbW.bits))
        (engineAfter s.params s.params.nlimb s.eng) s t := by
  rw [exec_rand, sampleFull_eq_sum]
  exact ⟨_, rfl, draws_afterDraw s rd (sum_rawOutput_lt s.params s.eng)⟩

section
variable {s : State} {rd ra rb : Reg}

theorem exec_urand_of_lt (hrange : s.r rb < s.r ra) :
    exec (.urand rd ra rb) s = .next (s.raise .invalidRange) :=
  if_pos hrange

theorem exec_urand_of_sample {d : EngineState × Nat} (hrange : s.r ra ≤ s.r rb)
    (hsample : sample s.params (s.r ra) (s.r rb) s.eng = some d) :
    exec (.urand rd ra rb) s = .next (s.afterDraw rd d) := by
  rw [exec, execUrand, if_neg (Nat.not_lt.mpr hrange), hsample]
  rfl

theorem exec_urand_of_sample_none (hrange : s.r ra ≤ s.r rb)
    (hsample : sample s.params (s.r ra) (s.r rb) s.eng = none) :
    exec (.urand rd ra rb) s = .fault .samplingNeverAccepts := by
  rw [exec, execUrand, if_neg (Nat.not_lt.mpr hrange), hsample]

/-- What the sampler adds to the low bound is an accepted candidate, so the value lies in the range and fits its register. -/
theorem exec_urand_draws {e : EngineState} {c : Nat} (hrange : s.r ra ≤ s.r rb)
    (hsample : sample s.params (s.r ra) (s.r rb) s.eng = some (e, s.r ra + c)) (haccepted : c < s.r rb - s.r ra + 1) :
    ∃ t, exec (.urand rd ra rb) s = .next t ∧ Draws rd (s.r ra + c) e s t := by
  have hfits : s.r ra + c < 2 ^ s.params.bits := lt_of_le_of_lt (by omega) (s.r_lt rb)
  exact ⟨_, exec_urand_of_sample hrange hsample, draws_afterDraw s rd hfits⟩

/-- A URAND that completes without an error has had a non-empty range and a sample of it. -/
theorem exists_sample_of_exec_urand {t : State} (hexec : exec (.urand rd ra rb) s = .next t)
    (hlast : t.status.last = none) :
    s.r ra ≤ s.r rb ∧ ∃ d, sample s.params (s.r ra) (s.r rb) s.eng = some d ∧ t = s.afterDraw rd d := by
  rcases Nat.lt_or_ge (s.r rb) (s.r ra) with hempty | hrange
  · rw [exec_urand_of_lt hempty] at hexec
    cases hexec
    cases hlast
  · cases hsample : sample s.params (s.r ra) (s.r rb) s.eng with
    | none =>
      rw [exec_urand_of_sample_none hrange hsample] at hexec
      cases hexec
    | some d =>
      rw [exec_urand_of_sample hrange hsample] at hexec
      cases hexec
      exact ⟨hrange, d, rfl, rfl⟩

end

/-- Settles O37: the sampler takes its first candidate of the full range, which is the one RAND assembles. -/
theorem randAssemblesNlimbDraws : Obligations.RandAssemblesNlimbDraws := by
  refine ⟨decodesAs .rand nofun nofun (fun w => .rand (fieldRd w)) fun _ => rfl, exec_rand_draws, ?_⟩
  intro s rd ra rb hlow hhigh
  have hsample : sample s.params (s.r ra) (s.r rb) s.eng = some (sampleFull s.params s.eng) := by
    rw [hlow, hhigh, sample_full]
  rw [exec_rand, exec_urand_of_sample (hlow ▸ Nat.zero_le _) hsample]

/-- Settles O38: the sampler's loop stops at the first accepted candidate. -/
theorem urandWritesTheFirstAcceptedCandidate : Obligations.UrandWritesTheFirstAcceptedCandidate := by
  refine ⟨decodesAs .urand nofun nofun (fun w => .urand (fieldRd w) (fieldRa w) (fieldRb w)) fun _ => rfl, ?_⟩
  intro s rd ra rb nb k
  constructor
  · intro hempty
    exact ⟨_, exec_urand_of_lt hempty, raise_raises s .invalidRange⟩
  · intro hrange hnb hk n haccepted hrejected
    have hnb' : nb = rangeBits (rangeSize (s.r ra) (s.r rb)) := by rw [hnb, rangeBits_rangeSize]
    exact exec_urand_draws hrange (sample_eq_some _ _ _ _ nb k n hnb' hk haccepted hrejected) haccepted

/-- Settles O40: the first candidate of a range of `2^t` values is accepted, and the value is the low bound plus it. -/
theorem urandCompletesOnPowerOfTwoRanges : Obligations.UrandCompletesOnPowerOfTwoRanges := by
  intro s rd ra rb t hrange hsize
  have haccepted : candidateAt s.params (drawsPerCandidate s.params.limbW.bits t) t s.eng 0 < s.r rb - s.r ra + 1 :=
    hsize ▸ candidateAt_lt s.params _ t s.eng 0
  obtain ⟨u, hexec, hvalue, -, -, -, hstatus⟩ :=
    exec_urand_draws (rd := rd) hrange (sample_of_two_pow hsize s.params s.eng) haccepted
  exact ⟨u, hexec, by omega, by omega, by rw [hstatus]⟩

/-- Settles O41: both commands write a sample of the range, which the parameters, the range and ENG determine. -/
theorem drawsDependOnEngineAndRangeOnly : Obligations.DrawsDependOnEngineAndRangeOnly := by
  constructor
  · intro s s' t t' rd rd' ra rb ra' rb' hparams heng hlow hhigh hexec hexec' hlast
    obtain ⟨hrange, d, hsample, rfl⟩ := exists_sample_of_exec_urand hexec hlast
    rw [hlow, hhigh] at hrange
    rw [hparams, heng, hlow, hhigh] at hsample
    cases hexec'.symm.trans (exec_urand_of_sample hrange hsample)
    simp [hparams]
  · intro s s' t t' rd rd' hparams heng hexec hexec'
    cases hexec.symm.trans (exec_rand s rd)
    cases hexec'.symm.trans (exec_rand s' rd')
    simp [hparams, heng]

end Sys2Proof.Machine
end

section
/-! PROOFS. CLRST and the errors (47_status.md R250; 60_exceptions.md R260 to R265). `Cause` lists the causes of the errors of
well-formed commands; that LAST reports exactly them is proved once, over the commands. -/

namespace Sys2Proof.Machine

open Sys2Proof.Safety

/-! ## CLRST (47_status.md R250) -/

/-- Settles O42: CLRST writes STATUS alone, and every other command only adds its error's bit to the sticky ones. -/
theorem clrstAloneClearsTheStickyBits : Obligations.ClrstAloneClearsTheStickyBits := by
  refine ⟨decodesAs .clrst nofun nofun (fun _ => .clrst) fun _ => rfl, fun _ => rfl, ?_⟩
  intro i s t hclrst ht
  obtain ⟨hsticky, -⟩ := stickyBitsAndCmpPersist i s t ht
  obtain ⟨hdz, hil, hic, hir⟩ := hsticky hclrst
  exact ⟨fun h => by simp [hdz, h], fun h => by simp [hil, h], fun h => by simp [hic, h], fun h => by simp [hir, h]⟩

/-! ## The error protocol (60_exceptions.md R262) -/

/-- A command that leaves LAST with an error has had no effect but that error's. -/
theorem Effect.eq_raise {s t : State} {i : Instr} {e : ErrorKind} (h : Effect s i t) (hlast : t.status.last = some e) :
    t = s.raise e := by
  cases h with
  | raises _ e' =>
    obtain rfl : e' = e := Option.some.inj hlast
    rfl
  | registers | cmp | cmpi | fmtd | fmth | seed | rand | urand | clrst => cases hlast

section
variable {w : CommandWord} {s t : State}

theorem runCommand_eq_raise {e : ErrorKind} (h : runCommand w s = .next t) (hlast : t.status.last = some e) :
    t = s.raise e := by
  cases hdecode : decode w with
  | command i =>
    rw [runCommand_of_command hdecode] at h
    exact (exec_effect s i t h).eq_raise hlast
  | illegal why =>
    cases h.symm.trans (runCommand_of_illegal hdecode s)
    obtain rfl : ErrorKind.illegalCommand = e := Option.some.inj hlast
    rfl

/-- An H_CMD that completes responds the LAST its command has left (20_memory.md R60). -/
theorem exists_runCommand_of_hCmd (h : hCmd w s = .next t) :
    ∃ u, runCommand w s = .next u ∧ t = u.respond (.code u.status.lastCode) := by
  unfold hCmd at h
  cases hrun : runCommand w s with
  | next u =>
    rw [hrun] at h
    cases h
    exact ⟨u, rfl, rfl⟩
  | fault | refused =>
    rw [hrun] at h
    cases h

end

/-- Settles O44: the command has only raised its error, and the response is added to the state that left. -/
theorem failedCommandsChangeOnlyStatus : Obligations.FailedCommandsChangeOnlyStatus := by
  intro s t w rest e hpending ht hlast
  obtain ⟨u, hrun, rfl⟩ := exists_runCommand_of_hCmd ((step_of_host hpending).symm.trans ht)
  obtain rfl := runCommand_eq_raise hrun hlast
  exact ⟨raise_raises { s with pending := rest } e, by cases e <;> rfl⟩

/-- Settles O4: an illegal word raises IllegalCommand before any operand is read. -/
theorem stepRaisesIllegalCommand : Obligations.StepRaisesIllegalCommand := by
  intro s w rest why hpending hdecode
  refine ⟨_, raise_raises { s with pending := rest } .illegalCommand, rfl, ?_⟩
  rw [step_of_host hpending]
  change hCmd w _ = _
  rw [hCmd, runCommand_of_illegal hdecode]
  rfl

/-! ## The causes of the errors (60_exceptions.md R261, R263, R265) -/

/-- In state `s`, the operands of a command are the listed cause of an error. -/
inductive Cause (s : State) : Instr → ErrorKind → Prop where
  | div {rd ra rb : Reg} : s.r rb = 0 → Cause s (.div rd ra rb) .divisionByZero
  | rem {rd ra rb : Reg} : s.r rb = 0 → Cause s (.rem rd ra rb) .divisionByZero
  | divrem {rd rc ra rb : Reg} : s.r rb = 0 → Cause s (.divrem rd rc ra rb) .divisionByZero
  | modpow {rd ra rb rc : Reg} : s.r rc = 0 → Cause s (.modpow rd ra rb rc) .divisionByZero
  | parse {rd : Reg} : (¬ ∃ base vs, Spells s.txt base vs) → Cause s (.parse rd) .invalidLiteral
  | urand {rd ra rb : Reg} : s.r rb < s.r ra → Cause s (.urand rd ra rb) .invalidRange

/-- A command reports at most one error (60_exceptions.md R267). -/
theorem Cause.unique {s : State} {i : Instr} {e e' : ErrorKind} (h : Cause s i e) (h' : Cause s i e') : e = e' := by
  cases h <;> cases h' <;> rfl

/-- LAST of `t` is exactly the error `i` has a cause for in `s`. -/
def Reports (s : State) (i : Instr) (t : State) : Prop := ∀ e, t.status.last = some e ↔ Cause s i e

section
variable {s : State} {i : Instr}

theorem reports_fail {e : ErrorKind} (h : Cause s i e) : NextIs (Reports s i) (fail e s) :=
  .of_next fun _ => ⟨fun hlast => Option.some.inj hlast ▸ h, fun h' => congrArg some (h.unique h')⟩

/-- A command that completes reports no error, which is right where it has no cause for one. -/
theorem reports_done (h : ∀ e, ¬ Cause s i e) (u : State) : NextIs (Reports s i) (done u) :=
  .of_next fun e => ⟨nofun, fun h' => absurd h' (h e)⟩

end

theorem reports_execParse (s : State) (rd : Reg) : NextIs (Reports s (.parse rd)) (execParse rd s) := by
  unfold execParse
  cases hliteral : literal s.txt with
  | none => exact reports_fail (.parse ((literal_eq_none_iff s.txt).mp hliteral))
  | some lit =>
    have hspells : Spells s.txt lit.1 lit.2 := (literal_iff s.txt lit.1 lit.2).mp hliteral
    have hnone : ∀ e, ¬ Cause s (.parse rd) e := fun | _, .parse h => h ⟨_, _, hspells⟩
    exact reports_done hnone _

theorem reports_execUrand (s : State) (rd ra rb : Reg) :
    NextIs (Reports s (.urand rd ra rb)) (execUrand rd ra rb s) := by
  unfold execUrand
  refine .guard (fun h => reports_fail (.urand h)) fun h => ?_
  cases sample s.params (s.r ra) (s.r rb) s.eng with
  | none => exact .of_fault _
  | some d => exact reports_done (fun | _, .urand h' => h h') _

/-- A well-formed command that completes reports exactly the error it has a cause for. -/
theorem exec_reports (s : State) {i : Instr} (hwf : i.wellFormed = true) : NextIs (Reports s i) (exec i s) := by
  cases i with
  | mov | ldi | add | sub | mul | and | or | xor | not | shl | shr | shli | shri | cmp | cmpi | seq | sne | slt | sle
  | sgt | sge | fmtd | fmth | seed | rand | clrst => exact reports_done (by nofun) _
  | mulw => exact .guard (fun _ => reports_done (by nofun) _) fun hodd => absurd hwf hodd
  | div => exact .guard (fun h => reports_fail (.div h)) fun h => reports_done (fun | _, .div h' => h h') _
  | rem => exact .guard (fun h => reports_fail (.rem h)) fun h => reports_done (fun | _, .rem h' => h h') _
  | modpow => exact .guard (fun h => reports_fail (.modpow h)) fun h => reports_done (fun | _, .modpow h' => h h') _
  | divrem =>
    exact .guard (fun hsame => absurd hsame (bne_iff_ne.mp hwf)) fun _ =>
      .guard (fun h => reports_fail (.divrem h)) fun h => reports_done (fun | _, .divrem h' => h h') _
  | parse rd => exact reports_execParse s rd
  | urand rd ra rb => exact reports_execUrand s rd ra rb

section
variable (s : State) (i : Instr)

theorem cause_divisionByZero_iff : Cause s i .divisionByZero ↔
    (∃ rd ra rb, (i = .div rd ra rb ∨ i = .rem rd ra rb) ∧ s.r rb = 0) ∨
      (∃ rd rc ra rb, i = .divrem rd rc ra rb ∧ s.r rb = 0) ∨ ∃ rd ra rb rc, i = .modpow rd ra rb rc ∧ s.r rc = 0 := by
  constructor
  · rintro (h | h | h | h)
    · exact .inl ⟨_, _, _, .inl rfl, h⟩
    · exact .inl ⟨_, _, _, .inr rfl, h⟩
    · exact .inr (.inl ⟨_, _, _, _, rfl, h⟩)
    · exact .inr (.inr ⟨_, _, _, _, rfl, h⟩)
  · rintro (⟨rd, ra, rb, rfl | rfl, h⟩ | ⟨rd, rc, ra, rb, rfl, h⟩ | ⟨rd, ra, rb, rc, rfl, h⟩)
    · exact .div h
    · exact .rem h
    · exact .divrem h
    · exact .modpow h

theorem cause_invalidLiteral_iff :
    Cause s i .invalidLiteral ↔ (∃ rd, i = .parse rd) ∧ ¬ ∃ base vs, Spells s.txt base vs :=
  ⟨fun | .parse h => ⟨⟨_, rfl⟩, h⟩, fun ⟨⟨_, hi⟩, h⟩ => hi ▸ .parse h⟩

theorem cause_invalidRange_iff : Cause s i .invalidRange ↔ ∃ rd ra rb, i = .urand rd ra rb ∧ s.r rb < s.r ra :=
  ⟨fun | .urand h => ⟨_, _, _, rfl, h⟩, fun ⟨_, _, _, hi, h⟩ => hi ▸ .urand h⟩

end

/-- Settles O45: LAST reports the error with a cause, and no operand of a well-formed command is a cause of
IllegalCommand. -/
theorem errorsHaveTheirListedCauses : Obligations.ErrorsHaveTheirListedCauses := by
  intro i s t hwf ht
  have hreports : Reports s i t := exec_reports s hwf t ht
  exact ⟨(hreports _).trans (cause_divisionByZero_iff s i), (hreports _).trans (cause_invalidLiteral_iff s i),
    (hreports _).trans (cause_invalidRange_iff s i), fun hlast => nomatch (hreports _).mp hlast⟩

end Sys2Proof.Machine
end

section
/-! PROOFS. What ends a run and what does not (60_exceptions.md R275, R277; 70_reset_and_hazards.md R297, R298): the
transactions that are none of the one host's, the URAND that never returns, and the runs that never stop. -/

namespace Sys2Proof.Machine

open Sys2Proof.Safety

/-! ## Transactions outside those of the one host (60_exceptions.md R275, R277) -/

theorem step_of_idle {s : State} (h : s.pending = []) : step s = .next s := by
  unfold step serve
  rw [h]

/-- Settles O5: the issuer, the empty list or the guard on the payload decides before anything is performed. -/
theorem stepsOutsideTheOneHostsTransactions : Obligations.StepsOutsideTheOneHostsTransactions :=
  ⟨fun _ _ _ hpending => step_of_other hpending, fun _ hidle => step_of_idle hidle,
    fun _ _ _ _ hpending hwide => (step_of_host hpending).trans (if_neg (Nat.not_lt.mpr hwide)),
    fun _ _ _ _ _ hpending hwide => (step_of_host hpending).trans (if_neg (Nat.not_lt.mpr hwide))⟩

/-! ## Which commands complete (70_reset_and_hazards.md R297) -/

/-- URAND returns with an error, returns with a sample, or hangs where there is no sample. -/
theorem exec_urand_eq_fault_iff (s : State) (rd ra rb : Reg) :
    exec (.urand rd ra rb) s = .fault .samplingNeverAccepts ↔
      s.r ra ≤ s.r rb ∧ sample s.params (s.r ra) (s.r rb) s.eng = none := by
  constructor
  · intro hfault
    rcases Nat.lt_or_ge (s.r rb) (s.r ra) with hempty | hrange
    · cases hfault.symm.trans (exec_urand_of_lt hempty)
    · refine ⟨hrange, ?_⟩
      cases hsample : sample s.params (s.r ra) (s.r rb) s.eng with
      | none => rfl
      | some d => cases hfault.symm.trans (exec_urand_of_sample hrange hsample)
  · rintro ⟨hrange, hnone⟩
    exact exec_urand_of_sample_none hrange hnone

/-- Settles O39: `sample` is none exactly where every candidate is rejected, which `sample_none_iff` shows of all of them. -/
theorem urandHangsExactlyWhenNothingIsAccepted : Obligations.UrandHangsExactlyWhenNothingIsAccepted := by
  intro s rd ra rb nb k hnb hk
  have hnb' : nb = rangeBits (rangeSize (s.r ra) (s.r rb)) := by rw [hnb, rangeBits_rangeSize]
  rw [exec_urand_eq_fault_iff, sample_none_iff _ _ _ _ nb k hnb' hk]
  rfl

/-- Settles O50: `SameView.exec`, of a state and itself, says that all commands but the two random draws complete, and RAND
takes its one candidate. -/
theorem onlyUrandMayNotComplete : Obligations.OnlyUrandMayNotComplete := by
  intro i s hurand
  by_cases hrand : ∃ rd, i = .rand rd
  · obtain ⟨rd, rfl⟩ := hrand
    exact ⟨_, exec_rand s rd⟩
  · have hself : SameView s s := ⟨rfl, fun _ => rfl, rfl, rfl⟩
    obtain ⟨t, _, ht, _, _⟩ := hself.exec i (not_exists.mp hrand) hurand
    exact ⟨t, ht⟩

/-! ## Transactions that complete -/

/-- The outcome is a next state, with the parameters and the issued transactions of `s`. -/
def Continues (s : State) (o : Outcome) : Prop := ∃ t, o = .next t ∧ t.params = s.params ∧ t.pending = s.pending

theorem Continues.guard {s : State} {c : Prop} [Decidable c] {o o' : Outcome} (h : c → Continues s o)
    (h' : ¬ c → Continues s o') : Continues s (if c then o else o') := by
  split
  · next hc => exact h hc
  · next hc => exact h' hc

theorem exec_continues (s : State) {i : Instr} (hurand : ∀ rd ra rb, i ≠ .urand rd ra rb) : Continues s (exec i s) := by
  obtain ⟨t, ht⟩ := onlyUrandMayNotComplete i s hurand
  obtain ⟨hparams, hpending, -⟩ := engineAndTextHaveTheirWriters i s t ht
  exact ⟨t, ht, hparams, hpending⟩

theorem fieldOp_of_decode_urand {w : CommandWord} {rd ra rb : Reg} (h : decode w = .command (.urand rd ra rb)) :
    fieldOp w = 0x62 := by
  obtain ⟨hencode, -⟩ := encodeOfDecode w _ h
  rw [← hencode]
  exact fieldOp_pack _ _ _ _ _

theorem runCommand_continues (s : State) {w : CommandWord} (hop : fieldOp w ≠ 0x62) : Continues s (runCommand w s) := by
  cases hdecode : decode w with
  | command i =>
    rw [runCommand_of_command hdecode]
    refine exec_continues s ?_
    rintro rd ra rb rfl
    exact hop (fieldOp_of_decode_urand hdecode)
  | illegal why =>
    rw [runCommand_of_illegal hdecode]
    exact ⟨_, rfl, rfl, rfl⟩

theorem hCmd_continues (s : State) {w : CommandWord} (hop : fieldOp w ≠ 0x62) : Continues s (hCmd w s) := by
  obtain ⟨t, ht, hparams, hpending⟩ := runCommand_continues s hop
  refine ⟨t.respond (.code t.status.lastCode), ?_, hparams, hpending⟩
  rw [hCmd, ht]

/-- A transaction with a payload its type admits on a block of parameters `p`, and no URAND word. -/
structure Admitted (p : Config.Params) (tx : HostTransaction) : Prop where
  noUrand : ∀ w, tx = .hCmd w → fieldOp w ≠ 0x62
  value : ∀ i v, tx = .hWreg i v → v < 2 ^ p.bits
  limb : ∀ i j x, tx = .hWlimb i j x → x < 2 ^ p.limbW.bits

theorem perform_continues {s : State} {tx : HostTransaction} (h : Admitted s.params tx) : Continues s (perform tx s) := by
  cases tx with
  | hCmd w => exact hCmd_continues s (h.noUrand w rfl)
  | hRreg | hRtxt | hRstatus | hWnat | hReset | hCmdAbandoned => exact ⟨_, rfl, rfl, rfl⟩
  | hWreg i v => exact .guard (fun _ => ⟨_, rfl, rfl, rfl⟩) fun hwide => absurd (h.value i v rfl) hwide
  | hRlimb | hWtxt => exact .guard (fun _ => ⟨_, rfl, rfl, rfl⟩) fun _ => ⟨_, rfl, rfl, rfl⟩
  | hWlimb i j x =>
    exact .guard (fun _ => .guard (fun _ => ⟨_, rfl, rfl, rfl⟩) fun _ => ⟨_, rfl, rfl, rfl⟩) fun hwide =>
      absurd (h.limb i j x rfl) hwide

/-! ## Runs (70_reset_and_hazards.md R298) -/

/-- What the one host has issued on `s` is admitted. -/
def AllAdmitted (s : State) : Prop := ∀ req ∈ s.pending, req.issuer = .host ∧ Admitted s.params req.tx

theorem step_allAdmitted {s : State} (h : AllAdmitted s) : ∃ t, step s = .next t ∧ AllAdmitted t := by
  cases hpending : s.pending with
  | nil => exact ⟨s, step_of_idle hpending, h⟩
  | cons req rest =>
    obtain ⟨issuer, tx⟩ := req
    rw [AllAdmitted, hpending] at h
    obtain ⟨⟨rfl, htx⟩, hrest⟩ := List.forall_mem_cons.mp h
    obtain ⟨t, ht, hparams, hleft⟩ := perform_continues (s := { s with pending := rest }) htx
    refine ⟨t, (step_of_host hpending).trans ht, ?_⟩
    rw [AllAdmitted, hparams, hleft]
    exact hrest

/-- A run goes on from the next state of its first step. -/
theorem run_succ_of_step {M : Host.Core} {s t : M.State} (h : M.step s = .next t) (k : Nat) :
    M.run (k + 1) s = M.run k t := by
  rw [Host.Core.run, h]

/-- A property whose states all have a next state with it never lets a run stop. -/
theorem runsFor_of_step {P : State → Prop} (hstep : ∀ s, P s → ∃ t, step s = .next t ∧ P t) (k : Nat) {s : State}
    (hs : P s) : RunsFor k s := by
  induction k generalizing s with
  | zero => exact ⟨s, rfl⟩
  | succ k ih =>
    obtain ⟨t, ht, hPt⟩ := hstep s hs
    obtain ⟨u, hu⟩ := ih hPt
    exact ⟨u, (run_succ_of_step (M := core) ht k).trans hu⟩

/-- Settles O51: admitted transactions all complete, and what is left of the list is admitted on the same parameters. -/
theorem runsWithoutUrandNeverStop : Obligations.RunsWithoutUrandNeverStop := by
  intro s k hissued
  refine runsFor_of_step (fun _ => step_allAdmitted) k fun req hreq => ?_
  obtain ⟨hhost, hcmd, hwreg, hwlimb⟩ := hissued req hreq
  exact ⟨hhost, hcmd, hwreg, hwlimb⟩

end Sys2Proof.Machine
end
